-- ==== Sys2Proof/Word.lean ====
section
/-! DEFINITION. The word types of TMIO-MT: bytes, 16-bit and 32-bit fields, one-bit levels.
Rules R10 and R12 of spec/00_scope.md: bit 0 is the least significant bit of every value, and a register
of width `N` is a bit vector whose arithmetic is modulo `2^N`. The registers whose width is a parameter of rule R8
(`wt`, `ut`, `low`, `high`, `thr`) take it from the build's `Cfg`. -/

namespace Sys2Proof

/-- A byte: 8 bits (rule R10). -/
abbrev Byte := BitVec 8

/-- A 16-bit latch or frame field: `di_gen`, `di_aux`, and the 16-bit fields of rules R110 and R111. -/
abbrev Word16 := BitVec 16

/-- A 32-bit frame field: the clock of rule R110 and `ut`. -/
abbrev Word32 := BitVec 32

/-- A one-bit level or flag: `true` is 1 (high, set), `false` is 0 (low, clear). -/
abbrev Bit := Bool

end Sys2Proof
end

