-- ==== Sys2Proof/Syntax.lean ====
section
/-! DEFINITION. The operations of TMIO-MT as one inductive, one constructor for each of the 28 rows of
spec/opcode_table.json (rules R90, R92 and R124 of spec/30_encoding.md): 5 environment events, 5 interrupt
handlers, 9 foreground rows (`SNAP` has two), 6 host commands, 2 frame layouts and the host-side reference
function. -/

namespace Sys2Proof

/-- The five formats of rule R92. -/
inductive Format where
  /-- the 4-byte structured command of `GEN = CURRENT` (rule R100) -/
  | cmd4
  /-- the 1-byte raw command of `GEN = LEGACY` (rule R104) -/
  | cmd1
  /-- the 17-byte telemetry frame of `GEN = CURRENT` (rule R110) -/
  | frame17
  /-- the 14-byte telemetry frame of `GEN = LEGACY` (rule R111) -/
  | frame14
  /-- no bit encoding: environment, handler and foreground operations -/
  | evt
  deriving DecidableEq, Repr, Inhabited

/-- The digital-input levels, in the shape each generation has (rule R44): two 16-bit latches with
`GEN = CURRENT`, one 8-bit latch with `GEN = LEGACY`. -/
inductive DigitalIn where
  | current (gen aux : Word16)
  | legacy (port : Byte)
  deriving DecidableEq, Repr, Inhabited

/-- The values one telemetry frame carries (rules R110, R111 and R230). Its fields are "fixed on the wire" (rule R8),
whatever the widths of the registers they are copied from. -/
structure FrameRecord where
  /-- clock, bits 15:0, whatever `CNT_W` is (rule R230, notes/assumptions/4.md) -/
  low : Word16
  /-- clock, bits 31:16, whatever `CNT_W` is (rule R230, notes/assumptions/4.md) -/
  high : Word16
  /-- wrapped ticks, as its two's-complement bit vector -/
  wt : Word16
  /-- unwrapped ticks, as its two's-complement bit vector -/
  ut : Word32
  /-- the digital-input field or fields -/
  di : DigitalIn
  deriving DecidableEq, Repr, Inhabited

/-- The operations (rule R90). -/
inductive Instr where
  /-- `TICK`, environment: one period of the timer clock (rule R151) -/
  | tick
  /-- `PIN a b z`, environment: the encoder pins take these levels (rule R131) -/
  | pin (a b z : Bit)
  /-- `RXB byte`, environment: one byte arrives on the serial link (rule R171) -/
  | rxb (byte : Byte)
  /-- `TXRDY`, environment: the serial transmitter becomes ready (rule R212) -/
  | txrdy
  /-- `DIN`, environment: the digital-input pins take these levels (rule R196) -/
  | din (levels : DigitalIn)
  /-- `ISR_A`, handler of the channel-A edge (rule R135) -/
  | isrA
  /-- `ISR_Z`, handler of the index edge (rule R140) -/
  | isrZ
  /-- `ISR_OVF`, handler of the timer overflow (rule R155) -/
  | isrOvf
  /-- `ISR_CMP`, handler of the timer compare (rule R156) -/
  | isrCmp
  /-- `ISR_RX`, handler of the received byte (rule R175) -/
  | isrRx
  /-- `BOOT`, foreground (rule R335) -/
  | boot
  /-- `SLEEP`, foreground (rule R242) -/
  | sleep
  /-- `MB_TAKE`, foreground (rule R178) -/
  | mbTake
  /-- `MB_CLEAR`, foreground (rule R179) -/
  | mbClear
  /-- `DINT`, foreground (rule R191) -/
  | dint
  /-- `SNAP` of a `CURRENT` block, foreground (rule R192) -/
  | snap
  /-- `SNAP.LEGACY`, the `SNAP` of a `LEGACY` block, foreground (rule R193) -/
  | snapLegacy
  /-- `EINT`, foreground (rule R194) -/
  | eint
  /-- `TXB`, foreground (rule R211) -/
  | txb
  /-- `CFGD p, m`, host command: configure general pin (rule R262) -/
  | cfgd (pin mode : Byte)
  /-- `CFGA p, m`, host command: configure auxiliary pin (rule R263) -/
  | cfga (pin mode : Byte)
  /-- `WRD p, v`, host command: write general pin (rule R264) -/
  | wrd (pin val : Byte)
  /-- `WRDM p, v`, host command: write general pin, mirrored (rule R265) -/
  | wrdm (pin val : Byte)
  /-- `WRA p, v`, host command: write auxiliary pin (rule R266) -/
  | wra (pin val : Byte)
  /-- `WRPORT b`, host command of a `LEGACY` block: the raw output byte (rule R267) -/
  | wrport (b : Byte)
  /-- `FRAME17`, the layout of the `CURRENT` telemetry frame (rule R110) -/
  | frame17 (low high wt : Word16) (ut : Word32) (gen aux : Word16)
  /-- `FRAME14`, the layout of the `LEGACY` telemetry frame (rule R111) -/
  | frame14 (low high wt : Word16) (ut : Word32) (port : Byte)
  /-- `FRAME_DECODE f`, the host-side reference function (rule R230) -/
  | frameDecode (f : List Byte)
  deriving DecidableEq, Repr, Inhabited

/-- The format of an operation's encoding (rules R92 and R124). -/
def Instr.format : Instr → Format
  | .tick => .evt
  | .pin _ _ _ => .evt
  | .rxb _ => .evt
  | .txrdy => .evt
  | .din _ => .evt
  | .isrA => .evt
  | .isrZ => .evt
  | .isrOvf => .evt
  | .isrCmp => .evt
  | .isrRx => .evt
  | .boot => .evt
  | .sleep => .evt
  | .mbTake => .evt
  | .mbClear => .evt
  | .dint => .evt
  | .snap => .evt
  | .snapLegacy => .evt
  | .eint => .evt
  | .txb => .evt
  | .cfgd _ _ => .cmd4
  | .cfga _ _ => .cmd4
  | .wrd _ _ => .cmd4
  | .wrdm _ _ => .cmd4
  | .wra _ _ => .cmd4
  | .wrport _ => .cmd1
  | .frame17 _ _ _ _ _ _ => .frame17
  | .frame14 _ _ _ _ _ => .frame14
  | .frameDecode _ => .evt

/-- The host commands a `LEGACY` or `CURRENT` host can send (rule R90, last six operations). -/
def Instr.isCommand (i : Instr) : Bool :=
  i.format == .cmd4 || i.format == .cmd1

/-- The three kinds of agent that take steps (rule R70). -/
inductive Agent where
  | environment
  | handler
  | foreground
  deriving DecidableEq, Repr, Inhabited

/-- The agent that takes an operation as its step (rule R70, the classes of rule R90), or `none` for the rows of
the table that no agent takes: host commands run inside `MB_TAKE` (rule R261), the frame rows are layouts, and
`FRAME_DECODE` is "not an operation of the block" (rule R230). -/
def Instr.agent : Instr → Option Agent
  | .tick => some .environment
  | .pin _ _ _ => some .environment
  | .rxb _ => some .environment
  | .txrdy => some .environment
  | .din _ => some .environment
  | .isrA => some .handler
  | .isrZ => some .handler
  | .isrOvf => some .handler
  | .isrCmp => some .handler
  | .isrRx => some .handler
  | .boot => some .foreground
  | .sleep => some .foreground
  | .mbTake => some .foreground
  | .mbClear => some .foreground
  | .dint => some .foreground
  | .snap => some .foreground
  | .snapLegacy => some .foreground
  | .eint => some .foreground
  | .txb => some .foreground
  | .cfgd _ _ => none
  | .cfga _ _ => none
  | .wrd _ _ => none
  | .wrdm _ _ => none
  | .wra _ _ => none
  | .wrport _ => none
  | .frame17 _ _ _ _ _ _ => none
  | .frame14 _ _ _ _ _ => none
  | .frameDecode _ => none

end Sys2Proof
end

