-- ==== Sys2Proof/Config.lean ====
section
/-! DEFINITION. The implementation parameters of rule R8 of spec/00_scope.md, and the free values.

The constants the source fixes are definitions. The parameters that each build chooses (rule R8: decided or
OPEN) are the fields of `Cfg`. `State` carries one `Cfg` that no operation changes, so a statement about every
state is a statement about every value of every parameter; `State.reset` uses `Cfg.default`
(notes/assumptions/3.md). The two free values are the opaque constants at the end of the file. -/

namespace Sys2Proof

/-- `GEN`: the hardware generation, fixed when the block is built (rule R3). -/
inductive Gen where
  | current
  | legacy
  deriving DecidableEq, Repr, Inhabited

/-- `ENDIAN`: the byte order of every multi-byte frame field (rule R62). -/
inductive Endian where
  | le
  | be
  deriving DecidableEq, Repr, Inhabited

/-- An edge polarity: `RISING` (encoded 0) or `FALLING` (encoded 1) (rule R22). -/
inductive Polarity where
  | rising
  | falling
  deriving DecidableEq, Repr, Inhabited

/-- The other polarity. -/
def Polarity.flip : Polarity → Polarity
  | .rising => .falling
  | .falling => .rising

/-- `GLITCH_REARM`: what the glitch branch of `ISR_A` does to `arm` (rule R139). -/
inductive GlitchRearm where
  | keep
  | toggle
  deriving DecidableEq, Repr, Inhabited

/-- `MIRROR_EFFECT`: what `WRDM` does to the auxiliary outputs besides writing the general pin (rule R265).
`sameAux` is the spec's default; `other` is any other effect on `aux_out`, left free
(`Config.otherMirror`). -/
inductive MirrorEffect where
  | sameAux
  | other
  deriving DecidableEq, Repr, Inhabited

/-- The five interrupt sources (rule R295). -/
inductive Source where
  | a
  | z
  | ovf
  | cmp
  | rx
  deriving DecidableEq, Repr, Inhabited

/-- `WAKE_SET`: the sources whose handler wakes the foreground (rule R243). -/
structure WakeSet where
  a : Bit
  z : Bit
  ovf : Bit
  cmp : Bit
  rx : Bit
  deriving DecidableEq, Repr, Inhabited

/-- Membership in `WAKE_SET`. -/
def WakeSet.has (w : WakeSet) : Source → Bit
  | .a => w.a
  | .z => w.z
  | .ovf => w.ovf
  | .cmp => w.cmp
  | .rx => w.rx

/-- The five command selectors of rule R101. -/
inductive Selector where
  | cfgd
  | cfga
  | wrd
  | wrdm
  | wra
  deriving DecidableEq, Repr, Inhabited

/-- `OPSEL`: the byte code of each selector (rule R101). -/
structure OpSel where
  cfgd : Byte
  cfga : Byte
  wrd : Byte
  wrdm : Byte
  wra : Byte
  deriving DecidableEq, Repr, Inhabited

/-- The code of one selector. -/
def OpSel.code (o : OpSel) : Selector → Byte
  | .cfgd => o.cfgd
  | .cfga => o.cfga
  | .wrd => o.wrd
  | .wrdm => o.wrdm
  | .wra => o.wra

/-- The five codes in the source's listing order. -/
def OpSel.codes (o : OpSel) : List Byte := [o.cfgd, o.cfga, o.wrd, o.wrdm, o.wra]

/-- The default instantiation of `OPSEL`: 0x00 .. 0x04 in the source's listing order (rule R101). -/
def OpSel.default : OpSel :=
  { cfgd := 0x00, cfga := 0x01, wrd := 0x02, wrdm := 0x03, wra := 0x04 }

/-- The parameters a build of the block chooses (rule R8). -/
structure Cfg where
  gen : Gen
  endian : Endian
  /-- `WT_W`: the width of `wt` -/
  wtW : Nat
  /-- `UT_W`: the width of `ut` -/
  utW : Nat
  /-- `CNT_W`: the width of `low` and `thr` -/
  cntW : Nat
  /-- `EXT_W`: the width of `high` -/
  extW : Nat
  /-- `CMP_STEP`: the fixed step added to the wake-up threshold; OPEN, 1 .. 2^CNT_W - 1 -/
  cmpStep : BitVec cntW
  /-- `Z_POL`: the edge polarity of the index channel -/
  zPol : Polarity
  /-- `ARM_RESET`: the value of `arm` after reset -/
  armReset : Polarity
  glitch : GlitchRearm
  wakeSet : WakeSet
  opsel : OpSel
  mirror : MirrorEffect
  deriving DecidableEq, Repr, Inhabited

/-- The instantiation of the test vectors (spec/95_test_vectors.md, Conventions): `CURRENT`, little-endian, the widths
of decisions D2 and D3, `RISING`, `KEEP`, wake on compare and receive, the default selectors. `CMP_STEP` has no
default in the spec: DESIGN CHOICE 0x1000 (unsafe if a claim rested on it; none does, see notes/assumptions/3.md). -/
def Cfg.default : Cfg :=
  { gen := .current, endian := .le, wtW := 16, utW := 32, cntW := 16, extW := 16, cmpStep := 0x1000
    zPol := .rising, armReset := .rising, glitch := .keep,
    wakeSet := { a := false, z := false, ovf := false, cmp := true, rx := true },
    opsel := OpSel.default, mirror := .sameAux }

/-- `TX_START`: the first byte of a telemetry frame, `'E'` (rules R8 and R9). -/
def Config.txStart : Byte := 0x45

/-- `TX_END`: the last byte of a telemetry frame, the newline character (rules R8 and R9). -/
def Config.txEnd : Byte := 0x0A

/-- `CMD_START`: the first byte of a `CURRENT` command (rules R8 and R100). -/
def Config.cmdStart : Byte := 0xA9

/-- `N_PINS`: pins per logical bus (rule R8). -/
abbrev Config.nPins : Nat := 12

/-- `FRAME_LEN`: the total bytes of a telemetry frame (rules R8 and R113). -/
def Gen.frameLen : Gen → Nat
  | .current => 17
  | .legacy => 14

/-- `FRAME_LEN` of a build. -/
abbrev Cfg.frameLen (c : Cfg) : Nat := c.gen.frameLen

/-- `COUNTER_RANGE`: the number of counter states, derived from `CNT_W` (rule R8). -/
def Cfg.counterRange (c : Cfg) : Nat := 2 ^ c.cntW

/-- The number of values of the logical clock, which has `EXT_W + CNT_W` bits (rule R30). -/
def Cfg.clockRange (c : Cfg) : Nat := 2 ^ (c.extW + c.cntW)

/-- FREE VALUE. The operation the environment, the interrupt logic or the foreground takes next when the schedule
held in `State` is empty: rule R70 fixes no order ("Which enabled agent steps next is not fixed"). The argument
is a counter in `State` that every draw advances. Nothing can evaluate it (notes/assumptions/1.md). -/
opaque Config.draw : Nat → Instr

/-- FREE VALUE. The auxiliary outputs after a `WRDM` under a `MIRROR_EFFECT` other than the default, from the
pin's index, the level and the auxiliary outputs before (rule R265, notes/assumptions/13.md). -/
opaque Config.otherMirror : Fin Config.nPins → Bit → Vector Bit Config.nPins → Vector Bit Config.nPins

end Sys2Proof
end

