-- ==== Sys2Proof/WellFormed.lean ====
section
/-! DEFINITION. Well-formedness: which parameter values a build may have (rule R8 of spec/00_scope.md) and
which operations exist in a build (rules R3, R90, R118, R196, R230: the generation selects the command set, the
frame layout, the snapshot row and the shape of the digital inputs). -/

namespace Sys2Proof

/-- The legal widths of rule R8: `CNT_W + EXT_W = 32` (decision D2); `ut` is wider than `wt` (rule R21). DEDUCED
(notes/assumptions/4.md): every width is at least 1, and in a `LEGACY` block the counter and its extension have the 16
bits of their own frame fields (rule R111). -/
def Cfg.widthsLegal (c : Cfg) : Bool :=
  decide (0 < c.wtW ∧ c.wtW < c.utW ∧ 0 < c.cntW ∧ 0 < c.extW ∧ c.cntW + c.extW = 32 ∧
    (c.gen = .legacy → c.cntW = 16))

/-- The legal parameter values of rule R8: the widths, `CMP_STEP` in 1 .. 2^CNT_W - 1, and an injective `OPSEL`. Every
other parameter's type holds its legal values only. -/
def Cfg.wf (c : Cfg) : Bool :=
  c.widthsLegal && c.cmpStep != 0 && decide c.opsel.codes.Nodup

/-- Digital-input levels have the shape of the generation (rules R44 and R196). -/
def DigitalIn.fits : DigitalIn → Gen → Bool
  | .current _ _, .current => true
  | .legacy _, .legacy => true
  | .current _ _, .legacy => false
  | .legacy _, .current => false

/-- A frame record has the digital-input fields of the generation. -/
def FrameRecord.fits (r : FrameRecord) (g : Gen) : Bool := r.di.fits g

/-- The operation exists in a block of the generation, and a frame given to `FRAME_DECODE` has `FRAME_LEN` bytes
(rules R3, R118 and R230). A `pin` or `val` byte outside its meaningful range is not ill-formed: the command
exists and has no effect (rules R119 and R268). -/
def Instr.wf (c : Cfg) : Instr → Bool
  | .tick => true
  | .pin _ _ _ => true
  | .rxb _ => true
  | .txrdy => true
  | .din d => d.fits c.gen
  | .isrA => true
  | .isrZ => true
  | .isrOvf => true
  | .isrCmp => true
  | .isrRx => true
  | .boot => true
  | .sleep => true
  | .mbTake => true
  | .mbClear => true
  | .dint => true
  | .snap => c.gen == .current
  | .snapLegacy => c.gen == .legacy
  | .eint => true
  | .txb => true
  | .cfgd _ _ => c.gen == .current
  | .cfga _ _ => c.gen == .current
  | .wrd _ _ => c.gen == .current
  | .wrdm _ _ => c.gen == .current
  | .wra _ _ => c.gen == .current
  | .wrport _ => c.gen == .legacy
  | .frame17 _ _ _ _ _ _ => c.gen == .current
  | .frame14 _ _ _ _ _ => c.gen == .legacy
  | .frameDecode f => f.length == c.frameLen

end Sys2Proof
end

