-- ==== Sys2Proof/Decode.lean ====
section
/-! DEFINITION. The encodings of TMIO-MT: byte order and field assembly (rules R13 and R112), the decoder of
commands and frames, the host-side reference function `FRAME_DECODE` with its resynchronisation (rules R230,
R231), the encoder, and the reading of an opcode-table word.

Operations of format `EVT` have no bit encoding (rule R92): they encode to no bytes and nothing decodes to
them. -/

namespace Sys2Proof

/-! ## Byte order (rules R13, R62, R112) -/

/-- Byte `k` of a value: `v[8k+7 : 8k]` (rules R10 and R13). -/
def byteOf {w : Nat} (v : BitVec w) (k : Nat) : Byte := v.extractLsb' (8 * k) 8

/-- The `n` bytes of a field in the order they stand at rising offsets: with `LE` the least significant first, with
`BE` the most significant first (rules R13 and R112). -/
def fieldBytes (e : Endian) (n : Nat) {w : Nat} (v : BitVec w) : List Byte :=
  match e with
  | .le => (List.range n).map (byteOf v)
  | .be => ((List.range n).map (byteOf v)).reverse

/-- The unsigned value of bytes given least significant first. -/
def littleNat : List Byte → Nat
  | [] => 0
  | b :: bs => b.toNat + 256 * littleNat bs

/-- The value of `w` bits that a field's bytes stand for (rule R13, the inverse of `fieldBytes`). -/
def joinBytes (e : Endian) (w : Nat) (bs : List Byte) : BitVec w :=
  match e with
  | .le => BitVec.ofNat w (littleNat bs)
  | .be => BitVec.ofNat w (littleNat bs.reverse)

/-- `MemRead(addr, n)` acting on a byte sequence (rules R13 and R230). -/
def fieldAt (e : Endian) (f : List Byte) (addr n w : Nat) : BitVec w :=
  joinBytes e w ((f.drop addr).take n)

/-! ## Commands (rules R100 to R104, R119, R261) -/

/-- The selector an operation byte names, tried in the order of rule R261. -/
def OpSel.select (o : OpSel) (op : Byte) : Option Selector :=
  if op = o.cfgd then some .cfgd
  else if op = o.cfga then some .cfga
  else if op = o.wrd then some .wrd
  else if op = o.wrdm then some .wrdm
  else if op = o.wra then some .wra
  else none

/-- The command a selector makes of its two operand bytes (rule R102: each field is one whole byte). -/
def Selector.command : Selector → Byte → Byte → Instr
  | .cfgd, p, v => .cfgd p v
  | .cfga, p, v => .cfga p v
  | .wrd, p, v => .wrd p v
  | .wrdm, p, v => .wrdm p v
  | .wra, p, v => .wra p v

/-- Why bytes are not an encoding. -/
inductive Reject where
  /-- fewer bytes than the format has -/
  | truncated
  /-- byte 0 of a structured command is not `CMD_START` (rule R119 a) -/
  | noStart (b : Byte)
  /-- the operation byte is in no selector's place (rule R119 b) -/
  | unknownSelector (op : Byte)
  /-- `FRAME_DECODE` gives `None` (rules R121 and R230) -/
  | notAFrame
  /-- the format belongs to the other generation (rule R118) -/
  | otherGeneration
  /-- operations of format `EVT` have no bit encoding (rule R92) -/
  | noEncoding
  deriving DecidableEq, Repr

/-- A structured command at the head of a byte sequence (rule R100). -/
def decodeCmd4 (c : Cfg) : List Byte → Except Reject (Instr × List Byte)
  | start :: op :: pin :: val :: rest =>
    if start = Config.cmdStart then
      match c.opsel.select op with
      | some sel => .ok (sel.command pin val, rest)
      | none => .error (.unknownSelector op)
    else .error (.noStart start)
  | _ => .error .truncated

/-- A raw command at the head of a byte sequence: every byte is one (rules R104 and R120). -/
def decodeCmd1 : List Byte → Except Reject (Instr × List Byte)
  | b :: rest => .ok (.wrport b, rest)
  | [] => .error .truncated

/-! ## Frames (rules R110 to R117, R230, R231) -/

/-- The length byte: the total number of bytes of the frame (rule R113). -/
def lengthByte (g : Gen) : Byte := BitVec.ofNat 8 g.frameLen

/-- The bytes of a `FRAME17`, byte 0 first (rule R110). -/
def frame17Bytes (e : Endian) (clk : Word32) (wt : Word16) (ut : Word32) (gen aux : Word16) : List Byte :=
  [Config.txStart, lengthByte .current] ++ fieldBytes e 4 clk ++ fieldBytes e 2 wt ++ fieldBytes e 4 ut
    ++ fieldBytes e 2 gen ++ fieldBytes e 2 aux ++ [Config.txEnd]

/-- The bytes of a `FRAME14`, byte 0 first (rule R111). -/
def frame14Bytes (e : Endian) (low high wt : Word16) (ut : Word32) (port : Byte) : List Byte :=
  [Config.txStart, lengthByte .legacy] ++ fieldBytes e 2 low ++ fieldBytes e 2 high ++ fieldBytes e 2 wt
    ++ fieldBytes e 4 ut ++ fieldBytes e 1 port ++ [Config.txEnd]

/-- The frame row a record stands for. -/
def FrameRecord.toInstr (r : FrameRecord) : Instr :=
  match r.di with
  | .current gen aux => .frame17 r.low r.high r.wt r.ut gen aux
  | .legacy port => .frame14 r.low r.high r.wt r.ut port

/-- The bytes of the frame that carries a record, in the layout of the record's generation. -/
def frameBytes (e : Endian) (r : FrameRecord) : List Byte :=
  match r.di with
  | .current gen aux => frame17Bytes e (r.high ++ r.low) r.wt r.ut gen aux
  | .legacy port => frame14Bytes e r.low r.high r.wt r.ut port

/-- The three constant bytes of a frame stand in their places, and the sequence has `FRAME_LEN` bytes (rules R121
and R230; that any other length gives `None` is DEDUCED, notes/assumptions/10.md). -/
def frameMarked (g : Gen) (f : List Byte) : Bool :=
  f.length == g.frameLen && f.getD 0 0 == Config.txStart && f.getD 1 0 == lengthByte g
    && f.getD (g.frameLen - 1) 0 == Config.txEnd

/-- The fields of a frame, read at the offsets of rule R230, with its `clk[31:16]` and `clk[15:0]` for every `CNT_W`; how
they relate to registers of other widths is said in notes/assumptions/4.md. -/
def frameFields (e : Endian) (f : List Byte) : Gen → FrameRecord
  | .current =>
    let clk : Word32 := fieldAt e f 2 4 32
    { low := clk.extractLsb' 0 16, high := clk.extractLsb' 16 16, wt := fieldAt e f 6 2 16, ut := fieldAt e f 8 4 32,
      di := .current (fieldAt e f 12 2 16) (fieldAt e f 14 2 16) }
  | .legacy =>
    { low := fieldAt e f 2 2 16, high := fieldAt e f 4 2 16, wt := fieldAt e f 6 2 16, ut := fieldAt e f 8 4 32,
      di := .legacy (fieldAt e f 12 1 8) }

/-- `FRAME_DECODE(f)` (rule R230). -/
def frameDecode (c : Cfg) (f : List Byte) : Option FrameRecord :=
  if frameMarked c.gen f then some (frameFields c.endian f c.gen) else none

/-- The resynchronisation procedure of rule R231 on a received byte sequence, from its head: where `FRAME_DECODE` of
the next `FRAME_LEN` bytes is `Some r`, deliver `r` and go on after them (the first argument counts the bytes of a
delivered frame that are still to be passed); otherwise go on one byte later. -/
def resync (c : Cfg) : Nat → List Byte → List FrameRecord
  | _, [] => []
  | k + 1, _ :: bs => resync c k bs
  | 0, b :: bs =>
    match frameDecode c ((b :: bs).take c.frameLen) with
    | some r => r :: resync c (c.frameLen - 1) bs
    | none => resync c 0 bs

/-- A frame at the head of a byte sequence. -/
def decodeFrame (c : Cfg) (bs : List Byte) : Except Reject (Instr × List Byte) :=
  if bs.length < c.frameLen then .error .truncated
  else
    match frameDecode c (bs.take c.frameLen) with
    | some r => .ok (r.toInstr, bs.drop c.frameLen)
    | none => .error .notAFrame

/-! ## The decoder and the encoder -/

/-- The decoder: the encoding of the given format at the head of a byte sequence, byte 0 (the first on the wire)
first, and the bytes after it. Which formats exist is fixed by the generation (rule R118). -/
def decode (c : Cfg) (fmt : Format) (bs : List Byte) : Except Reject (Instr × List Byte) :=
  match fmt, c.gen with
  | .cmd4, .current => decodeCmd4 c bs
  | .cmd1, .legacy => decodeCmd1 bs
  | .frame17, .current => decodeFrame c bs
  | .frame14, .legacy => decodeFrame c bs
  | .cmd4, .legacy => .error .otherGeneration
  | .cmd1, .current => .error .otherGeneration
  | .frame17, .legacy => .error .otherGeneration
  | .frame14, .current => .error .otherGeneration
  | .evt, _ => .error .noEncoding

/-- The four bytes of a structured command (rule R100). -/
def cmd4Bytes (c : Cfg) (sel : Selector) (pin val : Byte) : List Byte :=
  [Config.cmdStart, c.opsel.code sel, pin, val]

/-- The encoder: the bytes of an operation's encoding, byte 0 first, written from the layouts of rules R100, R104, R110
and R111; none for format `EVT`. -/
def encode (c : Cfg) : Instr → List Byte
  | .tick => []
  | .pin _ _ _ => []
  | .rxb _ => []
  | .txrdy => []
  | .din _ => []
  | .isrA => []
  | .isrZ => []
  | .isrOvf => []
  | .isrCmp => []
  | .isrRx => []
  | .boot => []
  | .sleep => []
  | .mbTake => []
  | .mbClear => []
  | .dint => []
  | .snap => []
  | .snapLegacy => []
  | .eint => []
  | .txb => []
  | .cfgd p m => cmd4Bytes c .cfgd p m
  | .cfga p m => cmd4Bytes c .cfga p m
  | .wrd p v => cmd4Bytes c .wrd p v
  | .wrdm p v => cmd4Bytes c .wrdm p v
  | .wra p v => cmd4Bytes c .wra p v
  | .wrport b => [b]
  | .frame17 low high wt ut gen aux => frame17Bytes c.endian (high ++ low) wt ut gen aux
  | .frame14 low high wt ut port => frame14Bytes c.endian low high wt ut port
  | .frameDecode _ => []

/-- The number of bytes of a format (rule R118). -/
def Format.length : Format → Nat
  | .cmd4 => 4
  | .cmd1 => 1
  | .frame17 => 17
  | .frame14 => 14
  | .evt => 0

/-! ## Opcode-table words (rule R124) -/

/-- The `n` bytes of a table word, byte 0 first: byte 0 of a row is its most significant byte (rule R124: "byte 0 of
the command (the first on the wire) is bits 31:24", and the frame patterns have "byte 0 first and the most significant
bit of each byte first"; notes/assumptions/12.md). -/
def tableBytes : Nat → Nat → List Byte
  | 0, _ => []
  | n + 1, w => tableBytes n (w / 256) ++ [BitVec.ofNat 8 w]

/-- The format of the table's rows of a given width, and the generation they belong to. -/
def tableFormat : Nat → Option (Format × Gen)
  | 8 => some (.cmd1, .legacy)
  | 32 => some (.cmd4, .current)
  | 112 => some (.frame14, .legacy)
  | 136 => some (.frame17, .current)
  | _ => none

/-- The parameters the table is written for: the default `OPSEL` and `ENDIAN = LE` (rule R124). -/
def tableCfg (g : Gen) : Cfg := { Cfg.default with gen := g }

/-- The instruction the decoder reads from a word of the opcode table. -/
def decodeTableWord (nbits w : Nat) : Option Instr :=
  match tableFormat nbits with
  | none => none
  | some (fmt, g) =>
    match decode (tableCfg g) fmt (tableBytes fmt.length w) with
    | .ok (i, _) => some i
    | .error _ => none

end Sys2Proof
end

