-- ==== Sys2Proof/Machine/State.lean ====
section
/-! DEFINITION. The architectural state of TMIO-MT (spec/10_state.md, rules R20 to R48), its value after reset
(rule R47), and the reasons a step can stop.

Registers of both generations are fields of one record: a block of one generation never reads or writes the other
generation's registers, which then keep their reset values (rules R34, R42, R43, R44; notes/assumptions/11.md). -/

namespace Sys2Proof.Machine

/-- The foreground phases of rule R40. -/
inductive Phase where
  | boot
  | sleep
  | take
  | clear
  | dint
  | snap
  | eint
  | tx
  deriving DecidableEq, Repr, Inhabited

/-- The states of the command parser (rule R34). -/
inductive ParserState where
  | awaitStart
  | awaitFlag
  | awaitPin
  | awaitValue
  deriving DecidableEq, Repr, Inhabited

/-- A decoded command as the mailbox of a `CURRENT` block holds it: `{op, pin, val}` (rule R32). -/
structure Command where
  op : Byte
  pin : Byte
  val : Byte
  deriving DecidableEq, Repr, Inhabited

/-- The frame buffer's contents: (offset, byte) pairs with strictly rising offsets. An offset that is not listed holds
no value yet: nothing has written it (rule R47, "unspecified"; notes/assumptions/6.md). -/
abbrev Memory := List Host.Cell

/-- The one canonical form of a memory: strictly rising addresses. -/
abbrev Memory.wf (m : Memory) : Prop := (m.map Prod.fst).Pairwise (· < ·)

/-- The state of the block. Each field names the register of rule R46 it stands for. The registers whose width rule R8
makes a parameter have that width in `cfg`, so their arithmetic is modulo `2^WT_W`, `2^UT_W`, `2^CNT_W` and `2^EXT_W`.
-/
structure State where
  /-- MODEL's own: the parameters of rule R8 the block was built with; no operation changes them -/
  cfg : Cfg
  /-- `wt`, wrapped ticks, `WT_W` bits (R20) -/
  wt : BitVec cfg.wtW
  /-- `ut`, unwrapped ticks, `UT_W` bits (R21) -/
  ut : BitVec cfg.utW
  /-- `arm`, the armed polarity of channel A (R22) -/
  arm : Polarity
  /-- `ifg_a` (R23) -/
  ifgA : Bit
  /-- `ifg_z` (R23) -/
  ifgZ : Bit
  /-- `pin_a` (R24) -/
  pinA : Bit
  /-- `pin_b` (R24) -/
  pinB : Bit
  /-- `pin_z` (R24) -/
  pinZ : Bit
  /-- `low`, the free-running counter, `CNT_W` bits (R26) -/
  low : BitVec cfg.cntW
  /-- `high`, the extension word, `EXT_W` bits (R27) -/
  high : BitVec cfg.extW
  /-- `thr`, the compare threshold, `CNT_W` bits (R28) -/
  thr : BitVec cfg.cntW
  /-- `ifg_ovf` (R29) -/
  ifgOvf : Bit
  /-- `ifg_cmp` (R29) -/
  ifgCmp : Bit
  /-- `rx_reg` (R31) -/
  rxReg : Byte
  /-- `ifg_rx` (R31) -/
  ifgRx : Bit
  /-- `mb_value` of a `LEGACY` block: the raw byte (R32) -/
  mbByte : Byte
  /-- `mb_value` of a `CURRENT` block: the decoded instruction (R32) -/
  mbCommand : Command
  /-- `mb_ready` (R33) -/
  mbReady : Bit
  /-- `pstate` (R34, `CURRENT`) -/
  pstate : ParserState
  /-- `p_op` (R34, `CURRENT`) -/
  pOp : Byte
  /-- `p_pin` (R34, `CURRENT`) -/
  pPin : Byte
  /-- `buf`, the frame buffer (R35) -/
  buf : Memory
  /-- `tx_idx` (R36) -/
  txIdx : Nat
  /-- `tx_rdy` (R37) -/
  txRdy : Bit
  /-- `tx_out`, the bytes transmitted since reset, oldest first (R38) -/
  txOut : List Byte
  /-- `gie`, the global interrupt enable (R39) -/
  gie : Bit
  /-- `fg`, the foreground phase (R40) -/
  fg : Phase
  /-- `wake` (R41) -/
  wake : Bit
  /-- `gen_mode[1 .. 12]`, pin `p` at index `p - 1` (R42, `CURRENT`) -/
  genMode : Vector Byte Config.nPins
  /-- `aux_mode[1 .. 12]` (R42, `CURRENT`) -/
  auxMode : Vector Byte Config.nPins
  /-- `gen_out[1 .. 12]` (R42, `CURRENT`) -/
  genOut : Vector Bit Config.nPins
  /-- `aux_out[1 .. 12]` (R42, `CURRENT`) -/
  auxOut : Vector Bit Config.nPins
  /-- `do_port` (R43, `LEGACY`) -/
  doPort : Byte
  /-- `di_gen` (R44, `CURRENT`) -/
  diGen : Word16
  /-- `di_aux` (R44, `CURRENT`) -/
  diAux : Word16
  /-- `di_port` (R44, `LEGACY`) -/
  diPort : Byte
  /-- MODEL's own: the operations the agents of rule R70 take next, in order; the environment's inputs come with them
  -/
  schedule : List Instr
  /-- MODEL's own: how many operations have been drawn from `Config.draw` -/
  drawn : Nat
  /-- MODEL's own, host side: what the last `FRAME_DECODE` gave (R230) -/
  hostFrame : Option FrameRecord
  deriving DecidableEq, Repr

/-- Why a step can stop with a fault. No run from reset reaches either (spec rules R61 and R47 say why; the
statement `InvariantStepAnswersNext` says so of the model). -/
inductive Fault where
  /-- `TXB` with `tx_idx >= FRAME_LEN`: "An out-of-range access therefore has no rule and cannot occur" (R61).
  Raised by `execTxb` only. Safe. -/
  | bufferOffset
  /-- `TXB` of a byte of `buf` that no `SNAP` has written: "a read before a write would be a fault in the model"
  (spec/93_implementation_defined.md U11). Raised by `execTxb` only. Safe. -/
  | bufferUnwritten
  deriving DecidableEq, Repr

/-- Why an operation has no step. -/
inductive Refusal where
  /-- the arm of `exec` has no meaning yet; raised by `exec` only. Safe. -/
  | notModelled (mnemonic : String)
  /-- the operation's enabling condition is false: "the operation has no step when it is false" (R15). Raised by the
  meanings of handlers and foreground operations; `step` never asks for such an operation. Safe. -/
  | notEnabled
  /-- the operation does not exist in a block of this generation (R3, R118). Raised by the meanings of `DIN`, the host
  commands, both `SNAP` rows and the frame rows. Safe. -/
  | otherGeneration
  deriving DecidableEq, Repr

/-- What rule R47 leaves open at power-on: the registers it calls unspecified and the input latches that hold any
value the environment presents. -/
structure PowerOn where
  ifgA : Bit
  ifgZ : Bit
  ifgOvf : Bit
  ifgCmp : Bit
  ifgRx : Bit
  pinA : Bit
  pinB : Bit
  pinZ : Bit
  rxReg : Byte
  mbByte : Byte
  mbCommand : Command
  pOp : Byte
  pPin : Byte
  txRdy : Bit
  genMode : Vector Byte Config.nPins
  auxMode : Vector Byte Config.nPins
  genOut : Vector Bit Config.nPins
  auxOut : Vector Bit Config.nPins
  doPort : Byte
  diGen : Word16
  diAux : Word16
  diPort : Byte
  deriving DecidableEq, Repr

/-- The value the model names for each register rule R47 leaves open: zero. DESIGN CHOICE, unsafe
(notes/assumptions/5.md). -/
def PowerOn.zero : PowerOn :=
  { ifgA := false, ifgZ := false, ifgOvf := false, ifgCmp := false, ifgRx := false, pinA := false, pinB := false,
    pinZ := false, rxReg := 0, mbByte := 0, mbCommand := { op := 0, pin := 0, val := 0 }, pOp := 0, pPin := 0,
    txRdy := false, genMode := Vector.replicate Config.nPins 0, auxMode := Vector.replicate Config.nPins 0,
    genOut := Vector.replicate Config.nPins false, auxOut := Vector.replicate Config.nPins false, doPort := 0,
    diGen := 0, diAux := 0, diPort := 0 }

/-- The state after power-on of a block built with parameters `c`, with the open values `x` (the table of rule R47),
and a schedule still to come. -/
def State.powerOn (c : Cfg) (x : PowerOn) (schedule : List Instr) : State :=
  { cfg := c
    wt := 0, ut := 0, arm := c.armReset, ifgA := x.ifgA, ifgZ := x.ifgZ, pinA := x.pinA, pinB := x.pinB, pinZ := x.pinZ
    low := 0, high := 0, thr := c.cmpStep, ifgOvf := x.ifgOvf, ifgCmp := x.ifgCmp
    rxReg := x.rxReg, ifgRx := x.ifgRx, mbByte := x.mbByte, mbCommand := x.mbCommand, mbReady := false
    pstate := .awaitStart, pOp := x.pOp, pPin := x.pPin
    buf := [], txIdx := 0, txRdy := x.txRdy, txOut := [], gie := false, fg := .boot, wake := false
    genMode := x.genMode, auxMode := x.auxMode, genOut := x.genOut, auxOut := x.auxOut, doPort := x.doPort
    diGen := x.diGen, diAux := x.diAux, diPort := x.diPort
    schedule := schedule, drawn := 0, hostFrame := none }

/-- The machine right after reset: the parameters of `Cfg.default`, the open registers at zero, no schedule. -/
def State.reset : State := State.powerOn Cfg.default PowerOn.zero []

end Sys2Proof.Machine
end

