-- ==== Sys2Proof/Machine/Operands.lean ====
section
/-! DEFINITION. Operand forms: the pin number and value byte of a host command (rules R102, R268, R270), the
digital-input operand of `DIN` (rule R196), and the generation an operation belongs to (rule R3). -/

namespace Sys2Proof.Machine

/-- The register index of a pin byte: 1 .. 12 name a pin, every other value names none (rules R102 and R268). -/
def pinIndex (p : Byte) : Option (Fin Config.nPins) :=
  if h : 1 ≤ p.toNat ∧ p.toNat ≤ 12 then some ⟨p.toNat - 1, by show p.toNat - 1 < 12; omega⟩ else none

/-- Write the register of pin `p` of a register file `f[1 .. 12]`; any other `p` is refused without effect (rules R260
and R268). -/
def setPin {α : Type} (f : Vector α Config.nPins) (p : Byte) (x : α) : Vector α Config.nPins :=
  match pinIndex p with
  | some k => f.set k x
  | none => f

/-- The level a value byte stands for: `lvl(val)` (rule R270). -/
def lvl (v : Byte) : Bit := v != 0

/-- The digital-input latches the generation has, as `SNAP` reads them (rule R44). -/
def digitalIn (s : State) : DigitalIn :=
  match s.cfg.gen with
  | .current => .current s.diGen s.diAux
  | .legacy => .legacy s.diPort

/-- The logical clock `high ++ low`, `EXT_W + CNT_W` bits (rule R30). -/
def logicalClock (s : State) : BitVec (s.cfg.extW + s.cfg.cntW) := s.high ++ s.low

/-- The 4-byte clock field of a `CURRENT` frame: the logical clock `high ++ low`, whose `EXT_W + CNT_W` bits are 32 in
every legal build (rules R110 and R192, decision D2). Rule R116's bit numbers 31:16 and 15:0 are the registers' places for
`CNT_W = 16`; for another `CNT_W` the field still holds `high ++ low`, with `low` in bits `CNT_W - 1 : 0` (DEDUCED,
notes/assumptions/4.md). -/
def clockField (s : State) : Word32 := (logicalClock s).setWidth 32

/-- The 2-byte low clock field of a `LEGACY` frame (rule R111). -/
def lowField (s : State) : Word16 := s.low.setWidth 16

/-- The 2-byte high clock field of a `LEGACY` frame (rule R111). -/
def highField (s : State) : Word16 := s.high.setWidth 16

/-- The 2-byte signed field of `wt` (rules R110 and R112): the register itself when `WT_W = 16`; a wider register is
truncated on copy (decision D3), a narrower one keeps its signed value (DEDUCED, notes/assumptions/4.md). -/
def wtField (s : State) : Word16 := s.wt.signExtend 16

/-- The 4-byte signed field of `ut`, in the same way (rules R110 and R112). -/
def utField (s : State) : Word32 := s.ut.signExtend 32

/-- The values a `SNAP` at this state puts into the frame (rules R192 and R193). In a `CURRENT` block `low` and `high` of
the record are rule R230's halves of the clock field, the registers themselves for `CNT_W = 16`
(notes/assumptions/4.md). -/
def liveRecord (s : State) : FrameRecord :=
  match s.cfg.gen with
  | .current =>
    { low := (clockField s).extractLsb' 0 16, high := (clockField s).extractLsb' 16 16
      wt := wtField s, ut := utField s, di := digitalIn s }
  | .legacy => { low := lowField s, high := highField s, wt := wtField s, ut := utField s, di := digitalIn s }

/-- The meaning of an operation that exists in one generation only. -/
def inGeneration (g : Gen) (s : State) (o : Host.Outcome State Fault Refusal) : Host.Outcome State Fault Refusal :=
  if s.cfg.gen = g then o else .refused .otherGeneration

end Sys2Proof.Machine
end

