-- ==== Sys2Proof/Machine/Flags.lean ====
section
/-! DEFINITION. Pending flags, the edge and compare detectors that set them, and the enabling conditions of
handlers and foreground operations (rules R23, R29, R131, R151 to R153, R240, R295, R300). -/

namespace Sys2Proof.Machine

/-- The pending flag of a source (rule R295). -/
def pending (src : Source) (s : State) : Bit :=
  match src with
  | .a => s.ifgA
  | .z => s.ifgZ
  | .ovf => s.ifgOvf
  | .cmp => s.ifgCmp
  | .rx => s.ifgRx

/-- Clear the pending flag of a source and of no other. -/
def clearFlag (src : Source) (s : State) : State :=
  { s with
    ifgA := src != .a && s.ifgA
    ifgZ := src != .z && s.ifgZ
    ifgOvf := src != .ovf && s.ifgOvf
    ifgCmp := src != .cmp && s.ifgCmp
    ifgRx := src != .rx && s.ifgRx }

/-- An edge of the given polarity: `edge_a` with `arm`, `edge_z` with `Z_POL` (rule R131). -/
def isEdge (pol : Polarity) (old new : Bit) : Bit :=
  match pol with
  | .rising => !old && new
  | .falling => old && !new

/-- A handler is enabled when `gie = 1` and its pending flag is 1 (rule R300). -/
def handlerEnabled (src : Source) (s : State) : Bit := s.gie && pending src s

/-- The foreground is in the given phase (rule R240). -/
def atPhase (p : Phase) (s : State) : Bit := s.fg == p

/-- `SLEEP` is enabled (rule R242). -/
def sleepEnabled (s : State) : Bit := atPhase .sleep s && s.wake

/-- `TXB` is enabled (rule R211). -/
def txbEnabled (s : State) : Bit := atPhase .tx s && s.txRdy

/-- The operation has a step in this state, taken by one of the agents of rule R70: its *enabled when* condition
holds (rules R15 and R90). The rows no agent takes (host commands, frame layouts, `FRAME_DECODE`) have none. -/
def canStep (i : Instr) (s : State) : Bit :=
  match i with
  | .tick => true
  | .pin _ _ _ => true
  | .rxb _ => true
  | .txrdy => true
  | .din d => d.fits s.cfg.gen
  | .isrA => handlerEnabled .a s
  | .isrZ => handlerEnabled .z s
  | .isrOvf => handlerEnabled .ovf s
  | .isrCmp => handlerEnabled .cmp s
  | .isrRx => handlerEnabled .rx s
  | .boot => atPhase .boot s
  | .sleep => sleepEnabled s
  | .mbTake => atPhase .take s
  | .mbClear => atPhase .clear s
  | .dint => atPhase .dint s
  | .snap => atPhase .snap s && s.cfg.gen == .current
  | .snapLegacy => atPhase .snap s && s.cfg.gen == .legacy
  | .eint => atPhase .eint s
  | .txb => txbEnabled s
  | .cfgd _ _ => false
  | .cfga _ _ => false
  | .wrd _ _ => false
  | .wrdm _ _ => false
  | .wra _ _ => false
  | .wrport _ => false
  | .frame17 _ _ _ _ _ _ => false
  | .frame14 _ _ _ _ _ => false
  | .frameDecode _ => false

end Sys2Proof.Machine
end

