-- ==== Sys2Proof/Machine/Ops.lean ====
section
/-! DEFINITION. The shared operations: the frame buffer (rules R13, R61), taking an interrupt and returning from
it (rules R300 to R304), a foreground step (rules R15, R240). -/

namespace Sys2Proof.Machine

/-! ## The frame buffer -/

/-- The byte at an offset, or `none` where nothing has written one. -/
def Memory.read : Memory → Nat → Option Byte
  | [], _ => none
  | (a, b) :: m, addr => if a = addr then some b else Memory.read m addr

/-- Store one byte, keeping the addresses strictly rising. -/
def Memory.write : Memory → Nat → Byte → Memory
  | [], addr, v => [(addr, v)]
  | (a, b) :: m, addr, v =>
    if addr < a then (addr, v) :: (a, b) :: m
    else if addr = a then (addr, v) :: m
    else (a, b) :: Memory.write m addr v

/-- Store bytes at consecutive offsets. -/
def Memory.writeBytes : Memory → Nat → List Byte → Memory
  | m, _, [] => m
  | m, addr, b :: bs => Memory.writeBytes (Memory.write m addr b) (addr + 1) bs

/-- `MemWrite(addr, n, v)` (rule R13). -/
def Memory.writeField (e : Endian) (m : Memory) (addr n : Nat) {w : Nat} (v : BitVec w) : Memory :=
  Memory.writeBytes m addr (fieldBytes e n v)

/-- The `n` bytes from an offset, or `none` if one of them holds no value. -/
def Memory.readBytes (m : Memory) : Nat → Nat → Option (List Byte)
  | _, 0 => some []
  | addr, n + 1 =>
    match Memory.read m addr, Memory.readBytes m (addr + 1) n with
    | some b, some bs => some (b :: bs)
    | _, _ => none

/-- `MemRead(addr, n)` on the buffer, as a value of `w` bits (rule R13). -/
def Memory.readField (e : Endian) (m : Memory) (addr n w : Nat) : Option (BitVec w) :=
  (Memory.readBytes m addr n).map (joinBytes e w)

/-- The whole frame in the buffer, byte 0 first, once every byte of it has been written. -/
def frameInBuffer (s : State) : Option (List Byte) := Memory.readBytes s.buf 0 s.cfg.frameLen

/-- What a read of one byte of the buffer gives. -/
inductive BufferByte where
  /-- the byte stored there -/
  | byte (b : Byte)
  /-- the read faults -/
  | faults (f : Fault)
  deriving DecidableEq, Repr

/-- Read `buf[i]`: offsets are 0 .. FRAME_LEN - 1 (rule R61), and a byte no `SNAP` has written has no value. -/
def bufferByte (s : State) (i : Nat) : BufferByte :=
  if i < s.cfg.frameLen then
    match Memory.read s.buf i with
    | some b => .byte b
    | none => .faults .bufferUnwritten
  else .faults .bufferOffset

/-! ## Interrupts -/

/-- Return from a handler: the end of its step. It restores nothing a model can see (rule R302); if the source is in
`WAKE_SET`, `wake <- 1` (rule R304). -/
def returnFromHandler (src : Source) (s : State) : State :=
  { s with wake := s.wake || s.cfg.wakeSet.has src }

/-- Take the interrupt of a source: one atomic step of its handler (rule R300). Entry saves no state, changes no mode
and leaves `fg` alone; the handler clears its own flag in every branch (rule R345), clear first and re-arm after
(rules R141 and R346), has its effect, and returns. -/
def takeInterrupt (src : Source) (handler : State → State) (s : State) : Host.Outcome State Fault Refusal :=
  if handlerEnabled src s then .next (returnFromHandler src (handler (clearFlag src s)))
  else .refused .notEnabled

/-! ## The foreground -/

/-- One atomic step of the foreground, under its enabling condition (rules R15 and R240). -/
def foregroundStep (enabled : Bit) (effect : Host.Outcome State Fault Refusal) : Host.Outcome State Fault Refusal :=
  if enabled then effect else .refused .notEnabled

end Sys2Proof.Machine
end

