-- ==== Sys2Proof/Machine/Clock.lean ====
section
/-! DEFINITION. The clock extension: `TICK`, `ISR_OVF`, `ISR_CMP` (spec/41_clock_extension.md). -/

namespace Sys2Proof.Machine

/-- `TICK` (rule R151): the counter counts; the tick that wraps it to 0 sets `ifg_ovf` (rule R152), the tick after
which it equals `thr` sets `ifg_cmp` (rule R153). Always enabled. -/
def execTick (s : State) : Host.Outcome State Fault Refusal :=
  .next { s with
    ifgOvf := s.ifgOvf || s.low + 1 == 0
    ifgCmp := s.ifgCmp || s.low + 1 == s.thr
    low := s.low + 1 }

/-- The body of `ISR_OVF` (rule R155): the extension word gains exactly one, modulo `2^EXT_W` (rule R157). -/
def extendClock (s : State) : State := { s with high := s.high + 1 }

/-- `ISR_OVF` (rule R155). -/
def execIsrOvf (s : State) : Host.Outcome State Fault Refusal :=
  takeInterrupt .ovf extendClock s

/-- The body of `ISR_CMP` (rule R156): the threshold advances by `CMP_STEP`, modulo `2^CNT_W`. -/
def advanceThreshold (s : State) : State := { s with thr := s.thr + s.cfg.cmpStep }

/-- `ISR_CMP` (rule R156). -/
def execIsrCmp (s : State) : Host.Outcome State Fault Refusal :=
  takeInterrupt .cmp advanceThreshold s

end Sys2Proof.Machine
end

