-- ==== Sys2Proof/Machine/Encoder.lean ====
section
/-! DEFINITION. The quadrature decoder: `PIN`, `ISR_A`, `ISR_Z` (spec/40_quadrature_decoder.md). -/

namespace Sys2Proof.Machine

/-- `PIN a b z` (rule R131): the edge detectors compare the old latches with the new levels, then the latches take
the new levels. Always enabled; flags are only set. -/
def execPin (a b z : Bit) (s : State) : Host.Outcome State Fault Refusal :=
  .next { s with
    ifgA := s.ifgA || isEdge s.arm s.pinA a
    ifgZ := s.ifgZ || isEdge s.cfg.zPol s.pinZ z
    pinA := a, pinB := b, pinZ := z }

/-- Both tick counters move by the same `d`, +1 (`up`) or -1, modulo their widths (rule R138). -/
def countTicks (up : Bit) (s : State) : State :=
  { s with wt := if up then s.wt + 1 else s.wt - 1, ut := if up then s.ut + 1 else s.ut - 1 }

/-- The glitch branch's re-arming (rule R139). -/
def glitchArm (g : GlitchRearm) (arm : Polarity) : Polarity :=
  match g with
  | .keep => arm
  | .toggle => arm.flip

/-- The count an edge of A stands for, from the armed polarity and the levels of A and B: `some true` is +1,
`some false` is -1, `none` is the glitch branch, which does not consult B (rules R136, R137, R139, R142). -/
def edgeCount (arm : Polarity) (a b : Bit) : Option Bit :=
  match arm, a with
  | .rising, true => some (!b)
  | .falling, false => some b
  | .rising, false => none
  | .falling, true => none

/-- The body of `ISR_A` (rules R135 to R139): the level latches are sampled when the handler runs (rule R145); a
counted edge re-arms the other polarity. -/
def decodeEdge (s : State) : State :=
  match edgeCount s.arm s.pinA s.pinB with
  | some up => { countTicks up s with arm := s.arm.flip }
  | none => { s with arm := glitchArm s.cfg.glitch s.arm }

/-- `ISR_A` (rule R135). -/
def execIsrA (s : State) : Host.Outcome State Fault Refusal :=
  takeInterrupt .a decodeEdge s

/-- The body of `ISR_Z` (rule R140): `wt` is zeroed unconditionally, `ut` is untouched. -/
def zeroWrappedTicks (s : State) : State := { s with wt := 0 }

/-- `ISR_Z` (rule R140). -/
def execIsrZ (s : State) : Host.Outcome State Fault Refusal :=
  takeInterrupt .z zeroWrappedTicks s

end Sys2Proof.Machine
end

