-- ==== Sys2Proof/Machine/Dio.lean ====
section
/-! DEFINITION. The digital I/O commands (spec/46_dio_commands.md) and `DIN` (rule R196).

A host command is not a step of an agent: its effect runs inside `MB_TAKE` (rule R261). `cmd…` is the effect on the
digital I/O registers; `exec…` is that effect as the meaning of the command's row of the opcode table, in a
block of the command's generation (notes/assumptions/8.md). -/

namespace Sys2Proof.Machine

/-- `CFGD p, m` (rule R262). -/
def cmdCfgd (p m : Byte) (s : State) : State := { s with genMode := setPin s.genMode p m }

/-- `CFGA p, m` (rule R263). -/
def cmdCfga (p m : Byte) (s : State) : State := { s with auxMode := setPin s.auxMode p m }

/-- `WRD p, v` (rule R264). -/
def cmdWrd (p v : Byte) (s : State) : State := { s with genOut := setPin s.genOut p (lvl v) }

/-- `MIRROR_EFFECT`: the auxiliary outputs after a `WRDM` of pin `p` at a level (rule R265). An out-of-range pin is
ignored under every effect (rule R268). -/
def mirror (e : MirrorEffect) (aux : Vector Bit Config.nPins) (p : Byte) (level : Bit) : Vector Bit Config.nPins :=
  match e, pinIndex p with
  | .sameAux, _ => setPin aux p level
  | .other, some k => Config.otherMirror k level aux
  | .other, none => aux

/-- `WRDM p, v` (rule R265). -/
def cmdWrdm (p v : Byte) (s : State) : State :=
  { s with genOut := setPin s.genOut p (lvl v), auxOut := mirror s.cfg.mirror s.auxOut p (lvl v) }

/-- `WRA p, v` (rule R266). -/
def cmdWra (p v : Byte) (s : State) : State := { s with auxOut := setPin s.auxOut p (lvl v) }

/-- `WRPORT b` (rule R267). -/
def cmdWrport (b : Byte) (s : State) : State := { s with doPort := b }

/-- The effect of a selected structured command (rule R261). -/
def runSelector (sel : Selector) (p v : Byte) (s : State) : State :=
  match sel with
  | .cfgd => cmdCfgd p v s
  | .cfga => cmdCfga p v s
  | .wrd => cmdWrd p v s
  | .wrdm => cmdWrdm p v s
  | .wra => cmdWra p v s

/-- `apply(mb_value)` (rule R261). An operation byte outside the image of `OPSEL` does nothing (rule R269). -/
def applyMailbox (s : State) : State :=
  match s.cfg.gen with
  | .legacy => cmdWrport s.mbByte s
  | .current =>
    match s.cfg.opsel.select s.mbCommand.op with
    | some sel => runSelector sel s.mbCommand.pin s.mbCommand.val s
    | none => s

/-- The row `CFGD` (rule R262). -/
def execCfgd (p m : Byte) (s : State) : Host.Outcome State Fault Refusal :=
  inGeneration .current s (.next (cmdCfgd p m s))

/-- The row `CFGA` (rule R263). -/
def execCfga (p m : Byte) (s : State) : Host.Outcome State Fault Refusal :=
  inGeneration .current s (.next (cmdCfga p m s))

/-- The row `WRD` (rule R264). -/
def execWrd (p v : Byte) (s : State) : Host.Outcome State Fault Refusal :=
  inGeneration .current s (.next (cmdWrd p v s))

/-- The row `WRDM` (rule R265). -/
def execWrdm (p v : Byte) (s : State) : Host.Outcome State Fault Refusal :=
  inGeneration .current s (.next (cmdWrdm p v s))

/-- The row `WRA` (rule R266). -/
def execWra (p v : Byte) (s : State) : Host.Outcome State Fault Refusal :=
  inGeneration .current s (.next (cmdWra p v s))

/-- The row `WRPORT` (rule R267). -/
def execWrport (b : Byte) (s : State) : Host.Outcome State Fault Refusal :=
  inGeneration .legacy s (.next (cmdWrport b s))

/-- `DIN` (rule R196): the digital-input pins of the block's generation take new levels; no interrupt. -/
def execDin (d : DigitalIn) (s : State) : Host.Outcome State Fault Refusal :=
  match d with
  | .current gen aux => inGeneration .current s (.next { s with diGen := gen, diAux := aux })
  | .legacy port => inGeneration .legacy s (.next { s with diPort := port })

end Sys2Proof.Machine
end

