-- ==== Sys2Proof/Machine/Mailbox.lean ====
section
/-! DEFINITION. The command parser (rules R220 to R224) and the command mailbox: `RXB`, `ISR_RX`, `MB_TAKE`,
`MB_CLEAR` (spec/42_command_mailbox.md). -/

namespace Sys2Proof.Machine

/-- The parser's registers and the instruction it posts (rule R220). -/
structure ParserResult where
  pstate : ParserState
  pOp : Byte
  pPin : Byte
  post : Option Command
  deriving DecidableEq, Repr

/-- `cmd_parse(pstate, p_op, p_pin, b)`: the table of rule R221. -/
def cmdParse (pstate : ParserState) (pOp pPin b : Byte) : ParserResult :=
  match pstate with
  | .awaitStart =>
    { pstate := if b = Config.cmdStart then .awaitFlag else .awaitStart, pOp := pOp, pPin := pPin, post := none }
  | .awaitFlag => { pstate := .awaitPin, pOp := b, pPin := pPin, post := none }
  | .awaitPin => { pstate := .awaitValue, pOp := pOp, pPin := b, post := none }
  | .awaitValue =>
    { pstate := .awaitStart, pOp := pOp, pPin := pPin, post := some { op := pOp, pin := pPin, val := b } }

/-- `RXB byte` (rule R171): an unread byte is overwritten. Always enabled. -/
def execRxb (byte : Byte) (s : State) : Host.Outcome State Fault Refusal :=
  .next { s with rxReg := byte, ifgRx := true }

/-- Post a decoded instruction to the mailbox, if there is one (rule R175). -/
def postCommand (post : Option Command) (s : State) : State :=
  match post with
  | some v => { s with mbCommand := v, mbReady := true }
  | none => s

/-- The body of `ISR_RX` (rules R175 to R177): the byte in `rx_reg` is posted raw (`LEGACY`) or fed to the parser
(`CURRENT`); `mb_ready` is not tested first. -/
def receiveByte (s : State) : State :=
  match s.cfg.gen with
  | .legacy => { s with mbByte := s.rxReg, mbReady := true }
  | .current =>
    let r := cmdParse s.pstate s.pOp s.pPin s.rxReg
    postCommand r.post { s with pstate := r.pstate, pOp := r.pOp, pPin := r.pPin }

/-- `ISR_RX` (rule R175). -/
def execIsrRx (s : State) : Host.Outcome State Fault Refusal :=
  takeInterrupt .rx receiveByte s

/-- `MB_TAKE` (rule R178): test, read and apply in one step; `mb_ready` stays set until `MB_CLEAR`. -/
def execMbTake (s : State) : Host.Outcome State Fault Refusal :=
  foregroundStep (atPhase .take s)
    (.next (if s.mbReady then { applyMailbox s with fg := .clear } else { s with fg := .dint }))

/-- `MB_CLEAR` (rule R179). -/
def execMbClear (s : State) : Host.Outcome State Fault Refusal :=
  foregroundStep (atPhase .clear s) (.next { s with mbReady := false, fg := .dint })

end Sys2Proof.Machine
end

