-- ==== Sys2Proof/Machine/Sequencer.lean ====
section
/-! DEFINITION. The foreground sequencer and boot: `SLEEP` (spec/45_foreground_sequencer.md) and `BOOT`
(spec/70_reset_and_hazards.md). -/

namespace Sys2Proof.Machine

/-- `SLEEP` (rule R242): the foreground leaves the low-power sleep. -/
def execSleep (s : State) : Host.Outcome State Fault Refusal :=
  foregroundStep (sleepEnabled s) (.next { s with wake := false, fg := .take })

/-- `BOOT` (rule R335): the five pending flags are cleared, interrupts enabled, the loop entered at the sleep. -/
def execBoot (s : State) : Host.Outcome State Fault Refusal :=
  foregroundStep (atPhase .boot s)
    (.next { s with
      ifgA := false, ifgZ := false, ifgOvf := false, ifgCmp := false, ifgRx := false
      gie := true, fg := .sleep })

end Sys2Proof.Machine
end

