-- ==== Sys2Proof/Machine/Serial.lean ====
section
/-! DEFINITION. The serial framer: `TXB`, `TXRDY`, and the host's use of `FRAME_DECODE`
(spec/44_serial_framer.md). -/

namespace Sys2Proof.Machine

/-- The state after the byte `b` at `tx_idx` is transmitted (rule R211). -/
def transmit (b : Byte) (s : State) : State :=
  { s with
    txOut := s.txOut ++ [b]
    txRdy := false
    txIdx := s.txIdx + 1
    fg := if s.txIdx + 1 = s.cfg.frameLen then .sleep else s.fg }

/-- `TXB` (rule R211). -/
def execTxb (s : State) : Host.Outcome State Fault Refusal :=
  foregroundStep (txbEnabled s)
    (match bufferByte s s.txIdx with
    | .byte b => .next (transmit b s)
    | .faults f => .fault f)

/-- `TXRDY` (rule R212). Always enabled. -/
def execTxrdy (s : State) : Host.Outcome State Fault Refusal :=
  .next { s with txRdy := true }

/-- The row `FRAME_DECODE` (rule R230): the host applies the reference function to `f`; what it gives stands in the
model's own host-side field, and no register of the block changes (notes/assumptions/10.md). -/
def execFrameDecode (f : List Byte) (s : State) : Host.Outcome State Fault Refusal :=
  .next { s with hostFrame := frameDecode s.cfg f }

end Sys2Proof.Machine
end

