-- ==== Sys2Proof/Machine/Snapshot.lean ====
section
/-! DEFINITION. The snapshot and frame builder: `DINT`, `SNAP` of either generation, `EINT`, and the frame layouts
(spec/43_snapshot_builder.md, rules R110 and R111). -/

namespace Sys2Proof.Machine

/-- `DINT` (rule R191). -/
def execDint (s : State) : Host.Outcome State Fault Refusal :=
  foregroundStep (atPhase .dint s) (.next { s with gie := false, fg := .snap })

/-- The eight writes of rule R192, at the offsets of rule R110. -/
def layFrame17 (e : Endian) (clk : Word32) (wt : Word16) (ut : Word32) (gen aux : Word16) (m : Memory) : Memory :=
  let m := Memory.writeField e m 0 1 Config.txStart
  let m := Memory.writeField e m 1 1 (lengthByte .current)
  let m := Memory.writeField e m 2 4 clk
  let m := Memory.writeField e m 6 2 wt
  let m := Memory.writeField e m 8 4 ut
  let m := Memory.writeField e m 12 2 gen
  let m := Memory.writeField e m 14 2 aux
  Memory.writeField e m 16 1 Config.txEnd

/-- The eight writes of rule R193, at the offsets of rule R111. -/
def layFrame14 (e : Endian) (low high wt : Word16) (ut : Word32) (port : Byte) (m : Memory) : Memory :=
  let m := Memory.writeField e m 0 1 Config.txStart
  let m := Memory.writeField e m 1 1 (lengthByte .legacy)
  let m := Memory.writeField e m 2 2 low
  let m := Memory.writeField e m 4 2 high
  let m := Memory.writeField e m 6 2 wt
  let m := Memory.writeField e m 8 4 ut
  let m := Memory.writeField e m 12 1 port
  Memory.writeField e m 13 1 Config.txEnd

/-- `SNAP` of a `CURRENT` block (rule R192). -/
def execSnap (s : State) : Host.Outcome State Fault Refusal :=
  inGeneration .current s
    (foregroundStep (atPhase .snap s)
      (.next { s with
        buf := layFrame17 s.cfg.endian (clockField s) (wtField s) (utField s) s.diGen s.diAux s.buf
        fg := .eint }))

/-- `SNAP` of a `LEGACY` block (rule R193). -/
def execSnapLegacy (s : State) : Host.Outcome State Fault Refusal :=
  inGeneration .legacy s
    (foregroundStep (atPhase .snap s)
      (.next { s with
        buf := layFrame14 s.cfg.endian (lowField s) (highField s) (wtField s) (utField s) s.diPort s.buf
        fg := .eint }))

/-- `EINT` (rule R194). -/
def execEint (s : State) : Host.Outcome State Fault Refusal :=
  foregroundStep (atPhase .eint s) (.next { s with gie := true, txIdx := 0, fg := .tx })

/-- The row `FRAME17` (rule R110): the layout, laid into the frame buffer with the given field values. It is what
`SNAP` does with the live values, without the foreground's advance; no agent takes it (notes/assumptions/9.md). -/
def execFrame17 (low high wt : Word16) (ut : Word32) (gen aux : Word16) (s : State) :
    Host.Outcome State Fault Refusal :=
  inGeneration .current s (.next { s with buf := layFrame17 s.cfg.endian (high ++ low) wt ut gen aux s.buf })

/-- The row `FRAME14` (rule R111), in the same way. -/
def execFrame14 (low high wt : Word16) (ut : Word32) (port : Byte) (s : State) : Host.Outcome State Fault Refusal :=
  inGeneration .legacy s (.next { s with buf := layFrame14 s.cfg.endian low high wt ut port s.buf })

end Sys2Proof.Machine
end

