-- ==== Sys2Proof/Machine/Dispatch.lean ====
section
/-! DEFINITION. The meaning of every operation: one arm per constructor of `Instr`, one definition per arm. -/

namespace Sys2Proof.Machine

def exec (i : Instr) (s : State) : Host.Outcome State Fault Refusal :=
  match i with
  | .tick => Sys2Proof.Machine.execTick s
  | .pin a b z => Sys2Proof.Machine.execPin a b z s
  | .rxb byte => Sys2Proof.Machine.execRxb byte s
  | .txrdy => Sys2Proof.Machine.execTxrdy s
  | .din d => Sys2Proof.Machine.execDin d s
  | .isrA => Sys2Proof.Machine.execIsrA s
  | .isrZ => Sys2Proof.Machine.execIsrZ s
  | .isrOvf => Sys2Proof.Machine.execIsrOvf s
  | .isrCmp => Sys2Proof.Machine.execIsrCmp s
  | .isrRx => Sys2Proof.Machine.execIsrRx s
  | .boot => Sys2Proof.Machine.execBoot s
  | .sleep => Sys2Proof.Machine.execSleep s
  | .mbTake => Sys2Proof.Machine.execMbTake s
  | .mbClear => Sys2Proof.Machine.execMbClear s
  | .dint => Sys2Proof.Machine.execDint s
  | .snap => Sys2Proof.Machine.execSnap s
  | .snapLegacy => Sys2Proof.Machine.execSnapLegacy s
  | .eint => Sys2Proof.Machine.execEint s
  | .txb => Sys2Proof.Machine.execTxb s
  | .cfgd p m => Sys2Proof.Machine.execCfgd p m s
  | .cfga p m => Sys2Proof.Machine.execCfga p m s
  | .wrd p v => Sys2Proof.Machine.execWrd p v s
  | .wrdm p v => Sys2Proof.Machine.execWrdm p v s
  | .wra p v => Sys2Proof.Machine.execWra p v s
  | .wrport b => Sys2Proof.Machine.execWrport b s
  | .frame17 low high wt ut gen aux => Sys2Proof.Machine.execFrame17 low high wt ut gen aux s
  | .frame14 low high wt ut port => Sys2Proof.Machine.execFrame14 low high wt ut port s
  | .frameDecode f => Sys2Proof.Machine.execFrameDecode f s

end Sys2Proof.Machine
end

