-- ==== Sys2Proof/Machine/Fetch.lean ====
section
/-! DEFINITION. Where the next operation comes from, and where an opcode-table word is placed so that the next
step runs it.

Rule R70: "Which enabled agent steps next is not fixed". The schedule in `State` is the choice made, together with
the values the environment supplies; a statement about every state is a statement about every interleaving. When
the schedule is empty the choice is a free value (notes/assumptions/1.md). -/

namespace Sys2Proof.Machine

/-- The operation chosen next. -/
def scheduled (s : State) : Instr :=
  match s.schedule with
  | [] => Config.draw s.drawn
  | i :: _ => i

/-- The state once the choice is made: only the schedule, or the count of draws, has moved. -/
def afterChoice (s : State) : State :=
  { s with schedule := s.schedule.tail, drawn := if s.schedule.isEmpty then s.drawn + 1 else s.drawn }

/-- Feed received bytes to the command parser from `AWAIT_START`, as four `ISR_RX` steps would (rule R220): the
instruction posted last. -/
def parseAll : ParserState → Byte → Byte → List Byte → Option Command
  | _, _, _, [] => none
  | st, op, pin, b :: bs =>
    let r := cmdParse st op pin b
    match parseAll r.pstate r.pOp r.pPin bs with
    | some v => some v
    | none => r.post

/-- A command as the mailbox receives it, with the foreground about to take it: the generation and the table's
parameters (`tableCfg`), the posted value, phase `F_TAKE`, and `MB_TAKE` chosen next. -/
def placeCommand (g : Gen) (bs : List Byte) (s : State) : State :=
  let t := { s with
    cfg := { s.cfg with gen := g, opsel := (tableCfg g).opsel }, fg := .take, schedule := .mbTake :: s.schedule }
  match g with
  | .legacy => { t with mbByte := bs.getD 0 0, mbReady := true }
  | .current => postCommand (parseAll .awaitStart t.pOp t.pPin bs) { t with mbReady := false }

/-- A frame about to be built: the registers have the widths of the frame's fields, as the table's parameters say, and
hold the frame's values; the foreground is in phase `F_SNAP`, and the generation's `SNAP` is chosen next. -/
def placeFrame (g : Gen) (bs : List Byte) (s : State) : State :=
  let c : Cfg := { s.cfg with
    gen := g, endian := (tableCfg g).endian, wtW := 16, utW := 32, cntW := 16, extW := 16
    cmpStep := s.cfg.cmpStep.setWidth 16 }
  let r := frameFields c.endian bs g
  let t : State := { s with
    cfg := c, low := r.low, high := r.high, wt := r.wt, ut := r.ut, thr := s.thr.setWidth 16, fg := .snap }
  match r.di with
  | .current gen aux => { t with diGen := gen, diAux := aux, schedule := .snap :: s.schedule }
  | .legacy port => { t with diPort := port, schedule := .snapLegacy :: s.schedule }

/-- Place an opcode-table word so that the very next step runs it (notes/assumptions/12.md). A width that no row
of the table has places nothing. -/
def placeWord (s : State) (nbits w : Nat) : State :=
  match tableFormat nbits with
  | some (.cmd4, g) => placeCommand g (tableBytes Format.cmd4.length w) s
  | some (.cmd1, g) => placeCommand g (tableBytes Format.cmd1.length w) s
  | some (.frame17, g) => placeFrame g (tableBytes Format.frame17.length w) s
  | some (.frame14, g) => placeFrame g (tableBytes Format.frame14.length w) s
  | some (.evt, _) => s
  | none => s

end Sys2Proof.Machine
end

