-- ==== Sys2Proof/Machine/Step.lean ====
section
/-! DEFINITION. One step of the block (rule R70): the chosen operation runs if it is enabled. -/

namespace Sys2Proof.Machine

/-- One step. If the chosen operation has a step in this state it runs; if it has none (rule R15) its agent waits: a
handler not pending or masked, the foreground asleep or busy-waiting, a row no agent takes. Then only the
choice has been used up. -/
def step (s : State) : Host.Outcome State Fault Refusal :=
  if canStep (scheduled s) (afterChoice s) then exec (scheduled s) (afterChoice s) else .next (afterChoice s)

/-- The instruction whose opcode-table bits are `w`, placed where the next step finds it. -/
def State.withFetchWord (s : State) (nbits w : Nat) : State := placeWord s nbits w

end Sys2Proof.Machine
end

