-- ==== Sys2Proof/Safety.lean ====
section
/-! DEFINITION. What the statements about the machine are said in: runs of steps, the invariant of rules R61, R213
and R240, the order of the foreground, and the derived clocks of rules R30, R158 and R195. Nothing here is part of
the machine. -/

namespace Sys2Proof.Machine

/-! ## Runs -/

/-- `n` steps, stopping at the first fault or refusal. -/
def runSteps : Nat → State → Host.Outcome State Fault Refusal
  | 0, s => .next s
  | n + 1, s =>
    match step s with
    | .next t => runSteps n t
    | .fault f => .fault f
    | .refused r => .refused r

/-- The operations that deliver received bytes, each served at once (rule R122). -/
def feed (bs : List Byte) : List Instr := bs.flatMap fun b => [.rxb b, .isrRx]

/-- The handler of an interrupt source (rule R295). -/
def handlerOf : Source → Instr
  | .a => .isrA
  | .z => .isrZ
  | .ovf => .isrOvf
  | .cmp => .isrCmp
  | .rx => .isrRx

/-- The `SNAP` row of a generation (rule R124). -/
def snapOf : Gen → Instr
  | .current => .snap
  | .legacy => .snapLegacy

/-- Two states agree on the digital output registers (rules R42 and R43). -/
def sameOutputs (s t : State) : Prop :=
  t.genMode = s.genMode ∧ t.auxMode = s.auxMode ∧ t.genOut = s.genOut ∧ t.auxOut = s.auxOut ∧ t.doPort = s.doPort

/-! ## The foreground's order (rule R240) -/

/-- `gie` during each phase. -/
def gieIn : Phase → Bit
  | .boot => false
  | .sleep => true
  | .take => true
  | .clear => true
  | .dint => true
  | .snap => false
  | .eint => false
  | .tx => true

/-- The phases that may follow a phase when the foreground takes its step. -/
def follows : Phase → Phase → Bool
  | .boot, .sleep => true
  | .sleep, .take => true
  | .take, .clear => true
  | .take, .dint => true
  | .clear, .dint => true
  | .dint, .snap => true
  | .snap, .eint => true
  | .eint, .tx => true
  | .tx, .tx => true
  | .tx, .sleep => true
  | _, _ => false

/-! ## The invariant -/

/-- The bytes of the frame in the buffer that have been transmitted. -/
def sentPart (s : State) : List Byte :=
  if s.fg = .tx then ((frameInBuffer s).getD []).take s.txIdx else []

/-- A frame's bytes, as a build of the block sends them, and what they carry. -/
def isFrameOf (c : Cfg) (f : List Byte) (r : FrameRecord) : Prop := r.fits c.gen = true ∧ f = frameBytes c.endian r

/-- What every state that a run from power-on reaches has. -/
structure Inv (s : State) : Prop where
  /-- the parameters are legal (rule R8) -/
  cfgLegal : s.cfg.wf = true
  /-- the buffer keeps its canonical form -/
  bufCanonical : Memory.wf s.buf
  /-- the buffer holds nothing outside its `FRAME_LEN` offsets (rule R61) -/
  bufInRange : ∀ cell ∈ s.buf, cell.1 < s.cfg.frameLen
  /-- `gie` is what the phase says (rule R240) -/
  gieOfPhase : s.gie = gieIn s.fg
  /-- `tx_idx` is 0 .. FRAME_LEN (rule R36) -/
  idxBounded : s.txIdx ≤ s.cfg.frameLen
  /-- in phase `F_TX` a byte is left to send (rule R211) -/
  idxInFrame : s.fg = .tx → s.txIdx < s.cfg.frameLen
  /-- from `SNAP` to the last `TXB` the buffer holds a whole well-formed frame (rules R35 and R121) -/
  frameBuilt : s.fg = .eint ∨ s.fg = .tx → ∃ f r, frameInBuffer s = some f ∧ isFrameOf s.cfg f r
  /-- `tx_out` is whole well-formed frames and then the sent part of the one in the buffer (rule R213) -/
  outputFramed : ∃ rs : List FrameRecord, (∀ r ∈ rs, r.fits s.cfg.gen = true) ∧
    s.txOut = rs.flatMap (frameBytes s.cfg.endian) ++ sentPart s

/-! ## Clocks -/

/-- The logical clock of a frame record (rules R116 and R230). -/
def recordClock (r : FrameRecord) : Word32 := r.high ++ r.low

/-- The register `low` in the clock field of a record: bits `CNT_W - 1 : 0`. Rules R116 and R230 write `clk[15:0]`, which
is this for `CNT_W = 16`; for another legal `CNT_W` the split at bit `CNT_W` is DEDUCED, the model's choice
(notes/assumptions/4.md). `frameDecode` itself keeps rule R230's `clk[15:0]`, in `FrameRecord.low`. -/
def recordLow (c : Cfg) (r : FrameRecord) : BitVec c.cntW := (recordClock r).extractLsb' 0 c.cntW

/-- The register `high` in the clock field of a record: the `EXT_W` bits above those of `low`, which for `CNT_W = 16` are
rule R230's `clk[31:16]`; the split at another `CNT_W` is the model's choice, as for `recordLow`
(notes/assumptions/4.md). -/
def recordHigh (c : Cfg) (r : FrameRecord) : BitVec c.extW := (recordClock r).extractLsb' c.cntW c.extW

/-- A signed field of `n` bits carries a register of `w` bits: the register itself when the widths are equal (rule R112,
decision D3), its low bits when the register is wider (decision D3's remark on such a device), its signed value when it
is narrower, which the spec does not state (DEDUCED, the model's choice, notes/assumptions/4.md). -/
def carries {w n : Nat} (v : BitVec w) (field : BitVec n) : Prop :=
  (n ≤ w → field = v.setWidth n) ∧ (w ≤ n → field.toInt = v.toInt)

/-- A frame record carries the clock, tick and digital-input values of a state (rules R192, R193 and R232). For
`CNT_W` other than 16 the two halves of the clock, and for a `wt` or `ut` narrower than its field the signed value, are
the model's choice (`recordLow`, `recordHigh`, `carries`; notes/assumptions/4.md). -/
def carriesRegisters (s : State) (r : FrameRecord) : Prop :=
  (s.cfg.wf = true → recordLow s.cfg r = s.low ∧ recordHigh s.cfg r = s.high) ∧
    carries s.wt r.wt ∧ carries s.ut r.ut ∧ r.di = digitalIn s

/-- `u(clk)`: the number the logical clock shows (rule R30). -/
def clockNow (s : State) : Int := (logicalClock s).toNat

/-- The clock with the wrap that `ISR_OVF` has still to count (rules R160 and R195). -/
def countedClock (s : State) : Int := clockNow s + (if s.ifgOvf then s.cfg.counterRange else 0)

/-- `low` shows its maximum value, `2^CNT_W - 1` (rule R152). -/
def atMaximum (s : State) : Bool := s.low == BitVec.allOnes s.cfg.cntW

/-- The next step is the tick that wraps the counter (rule R152). -/
def wrapsNow (s : State) : Bool := scheduled s == .tick && atMaximum s

/-- The next step is a wrap while the previous one is still pending: an overflow is lost (rule R159). -/
def losesOverflow (s : State) : Bool := wrapsNow s && s.ifgOvf

/-- The number of wraps in the next `n` steps. -/
def wraps : Nat → State → Nat
  | 0, _ => 0
  | n + 1, s =>
    match step s with
    | .next t => (if wrapsNow s then 1 else 0) + wraps n t
    | .fault _ => 0
    | .refused _ => 0

/-- No overflow is lost in the next `n` steps. -/
def keepsOverflows : Nat → State → Prop
  | 0, _ => True
  | n + 1, s =>
    losesOverflow s = false ∧
      match step s with
      | .next t => keepsOverflows n t
      | .fault _ => True
      | .refused _ => True

/-! ## Reversed fields (rule R232) -/

/-- A 16-bit value with its two bytes exchanged. -/
def swap16 (v : Word16) : Word16 := v.extractLsb' 0 8 ++ v.extractLsb' 8 8

/-- A 32-bit value with its four bytes reversed. -/
def swap32 (v : Word32) : Word32 :=
  v.extractLsb' 0 8 ++ v.extractLsb' 8 8 ++ v.extractLsb' 16 8 ++ v.extractLsb' 24 8

/-- Digital inputs with each multi-byte field reversed. -/
def swapDigitalIn : DigitalIn → DigitalIn
  | .current gen aux => .current (swap16 gen) (swap16 aux)
  | .legacy port => .legacy port

/-- A record as a decoder of the wrong byte order reads it: every multi-byte field reversed. The clock of a `CURRENT`
frame is one 4-byte field, so its halves change places too. -/
def swapRecord (r : FrameRecord) : FrameRecord :=
  match r.di with
  | .current _ _ =>
    { low := swap16 r.high, high := swap16 r.low, wt := swap16 r.wt, ut := swap32 r.ut, di := swapDigitalIn r.di }
  | .legacy _ =>
    { low := swap16 r.low, high := swap16 r.high, wt := swap16 r.wt, ut := swap32 r.ut, di := swapDigitalIn r.di }

end Sys2Proof.Machine
end

