-- ==== Sys2Proof/Certificates/Slice0/Obligations.lean ====
section
/-! DEFINITION. The statements for the provers. Each docstring names the rule of spec/ it formalises. Where a rule is
marked in the spec as the spec's own decision or derivation, the statement's basis in OBLIGATIONS.json is
'derived', and the docstring names the decision or says 'derived in the spec'. A next state written `{ s with … }` says
at once what the operation writes and that every other field of the state, the frame buffer's every byte among them, is
unchanged. Registers whose width is a parameter (rule R8) have it in every statement; where a statement relates such a
register of two states, it reads it as a number (`toNat`, `toInt`), and says where it matters that `cfg` is the same. -/

open Sys2Proof Sys2Proof.Machine

/-! ## The environment -/

/-- Rule R131 (decision D9, D36): `PIN` sets a flag on an edge of the armed polarity, never clears one, and the three
latches take the new levels. -/
def Obligations.PinSetsFlagOnArmedEdge : Prop :=
  ∀ (a b z : Bit) (s : State), exec (.pin a b z) s = .next { s with
    ifgA := s.ifgA || (s.arm == .rising && !s.pinA && a) || (s.arm == .falling && s.pinA && !a)
    ifgZ := s.ifgZ || (s.cfg.zPol == .rising && !s.pinZ && z) || (s.cfg.zPol == .falling && s.pinZ && !z)
    pinA := a, pinB := b, pinZ := z }

/-- Rules R151 and R153 (decision D2, D11): `TICK` always counts, sets `ifg_ovf` on the wrap and `ifg_cmp` when the new
count equals `thr`, for every counter width. -/
def Obligations.TickCounts : Prop :=
  ∀ s : State, exec .tick s = .next { s with
    low := s.low + 1
    ifgOvf := s.ifgOvf || decide (s.low = BitVec.allOnes s.cfg.cntW)
    ifgCmp := s.ifgCmp || decide (s.low + 1 = s.thr) }

/-- Rule R152: the overflow flag is set by the `TICK` that takes the counter from its maximum value, `2^CNT_W - 1`, to
0 and by nothing else. -/
def Obligations.OverflowFlagOnlyFromWrap : Prop :=
  (∀ s : State, s.low.toNat = 2 ^ s.cfg.cntW - 1 → ∃ t, exec .tick s = .next t ∧ t.low = 0 ∧ t.ifgOvf = true) ∧
  (∀ (i : Instr) (s t : State), exec i s = .next t → s.ifgOvf = false → t.ifgOvf = true →
    i = .tick ∧ s.low.toNat = 2 ^ s.cfg.cntW - 1 ∧ t.low = 0)

/-- Rules R171, R212 and R196 (decisions D26, D27, D41): the input latches take what the environment supplies; `DIN`
has the shape of the block's generation, and the other shape has no step. -/
def Obligations.EnvironmentWritesLatches : Prop :=
  (∀ (b : Byte) (s : State), exec (.rxb b) s = .next { s with rxReg := b, ifgRx := true }) ∧
  (∀ s : State, exec .txrdy s = .next { s with txRdy := true }) ∧
  (∀ (g a : Word16) (s : State), s.cfg.gen = .current →
    exec (.din (.current g a)) s = .next { s with diGen := g, diAux := a }) ∧
  (∀ (p : Byte) (s : State), s.cfg.gen = .legacy → exec (.din (.legacy p)) s = .next { s with diPort := p }) ∧
  (∀ (d : DigitalIn) (s : State), d.fits s.cfg.gen = false → exec (.din d) s = .refused .otherGeneration)

/-! ## The handlers -/

/-- Rule R136: the rising branch of `ISR_A`. -/
def Obligations.RisingEdgeCounts : Prop :=
  ∀ s : State, s.gie = true → s.ifgA = true → s.arm = .rising → s.pinA = true →
    exec .isrA s = .next { s with
      wt := if s.pinB = false then s.wt + 1 else s.wt - 1
      ut := if s.pinB = false then s.ut + 1 else s.ut - 1
      ifgA := false, arm := .falling, wake := s.wake || s.cfg.wakeSet.a }

/-- Rule R137: the falling branch of `ISR_A`. -/
def Obligations.FallingEdgeCounts : Prop :=
  ∀ s : State, s.gie = true → s.ifgA = true → s.arm = .falling → s.pinA = false →
    exec .isrA s = .next { s with
      wt := if s.pinB = true then s.wt + 1 else s.wt - 1
      ut := if s.pinB = true then s.ut + 1 else s.ut - 1
      ifgA := false, arm := .rising, wake := s.wake || s.cfg.wakeSet.a }

/-- Rule R139 (decision D5): the glitch branch of `ISR_A` counts nothing, clears the flag, and does to `arm` what
`GLITCH_REARM` says. -/
def Obligations.GlitchEdgeIsIgnored : Prop :=
  ∀ s : State, s.gie = true → s.ifgA = true →
    (s.arm = .rising ∧ s.pinA = false ∨ s.arm = .falling ∧ s.pinA = true) →
    exec .isrA s = .next { s with
      ifgA := false
      arm := if s.cfg.glitch = .toggle then s.arm.flip else s.arm
      wake := s.wake || s.cfg.wakeSet.a }

/-- Rule R140: `ISR_Z` zeroes `wt` and touches nothing else of the decoder; and its order against `ISR_A` matters for
`wt` only (corner case d). -/
def Obligations.IndexZeroesWrappedTicks : Prop :=
  (∀ s : State, s.gie = true → s.ifgZ = true →
    exec .isrZ s = .next { s with wt := 0, ifgZ := false, wake := s.wake || s.cfg.wakeSet.z }) ∧
  (∀ s : State, (s.gie = false ∨ s.ifgZ = false) → exec .isrZ s = .refused .notEnabled) ∧
  (∀ s : State, s.gie = true → s.ifgA = true → s.ifgZ = true →
    (s.arm = .rising ∧ s.pinA = true ∨ s.arm = .falling ∧ s.pinA = false) →
    ∃ a az z za, exec .isrA s = .next a ∧ exec .isrZ a = .next az ∧ exec .isrZ s = .next z ∧ exec .isrA z = .next za ∧
      az.wt = 0 ∧ (za.wt = 1 ∨ za.wt = -1) ∧ az.ut.toNat = za.ut.toNat)

/-- Rule R155: one run of `ISR_OVF` adds exactly one to the extension word, modulo `2^EXT_W`. -/
def Obligations.OverflowHandlerExtendsClock : Prop :=
  (∀ s : State, s.gie = true → s.ifgOvf = true →
    exec .isrOvf s = .next { s with high := s.high + 1, ifgOvf := false, wake := s.wake || s.cfg.wakeSet.ovf }) ∧
  (∀ s : State, (s.gie = false ∨ s.ifgOvf = false) → exec .isrOvf s = .refused .notEnabled)

/-- Rule R156 (decision D11, D12): `ISR_CMP` advances the threshold by `CMP_STEP`, modulo `2^CNT_W`, and extends
no clock. -/
def Obligations.CompareHandlerAdvancesThreshold : Prop :=
  (∀ s : State, s.gie = true → s.ifgCmp = true →
    exec .isrCmp s = .next { s with
      thr := s.thr + s.cfg.cmpStep, ifgCmp := false, wake := s.wake || s.cfg.wakeSet.cmp }) ∧
  (∀ s : State, (s.gie = false ∨ s.ifgCmp = false) → exec .isrCmp s = .refused .notEnabled)

/-- Rule R176: in a `LEGACY` block every received byte is posted as it is, value and ready flag in one step. -/
def Obligations.LegacyReceivePostsRawByte : Prop :=
  ∀ s : State, s.cfg.gen = .legacy → s.gie = true → s.ifgRx = true →
    exec .isrRx s = .next { s with
      mbByte := s.rxReg, mbReady := true, ifgRx := false, wake := s.wake || s.cfg.wakeSet.rx }

/-- Rules R175, R177 and R221 (decisions D16, D17): in a `CURRENT` block `ISR_RX` feeds the byte to the parser, which
posts a command, unvalidated, at its fourth byte and not before. -/
def Obligations.CurrentReceiveParsesByte : Prop :=
  ∀ s : State, s.cfg.gen = .current → s.gie = true → s.ifgRx = true →
    exec .isrRx s = .next (
      let t := { s with ifgRx := false, wake := s.wake || s.cfg.wakeSet.rx }
      match s.pstate with
      | .awaitStart => if s.rxReg = 0xA9 then { t with pstate := .awaitFlag } else t
      | .awaitFlag => { t with pstate := .awaitPin, pOp := s.rxReg }
      | .awaitPin => { t with pstate := .awaitValue, pPin := s.rxReg }
      | .awaitValue =>
        { t with
          pstate := .awaitStart, mbReady := true, mbCommand := { op := s.pOp, pin := s.pPin, val := s.rxReg } })

/-- Rule R345: every handler that runs leaves its own pending flag clear, in every branch, and every other one as it
was. -/
def Obligations.HandlersClearTheirFlag : Prop :=
  ∀ (src : Source) (s : State), handlerEnabled src s = true →
    ∃ t, exec (handlerOf src) s = .next t ∧ pending src t = false ∧
      (∀ other, other ≠ src → pending other t = pending other s)

/-- Rule R298 (decision D13): two handlers enabled at once may run in either order; unless they are those of A and Z
the order does not matter. -/
def Obligations.IndependentHandlersCommute : Prop :=
  ∀ (x y : Source) (s : State), x ≠ y → ¬(x = .a ∧ y = .z) → ¬(x = .z ∧ y = .a) →
    handlerEnabled x s = true → handlerEnabled y s = true →
    ∃ t u v, exec (handlerOf x) s = .next t ∧ exec (handlerOf y) s = .next u ∧
      exec (handlerOf y) t = .next v ∧ exec (handlerOf x) u = .next v

/-! ## The foreground -/

/-- Rule R335 (decision D30): `BOOT` clears the five pending flags, sets `gie` and enters the sleep, writing nothing
else. -/
def Obligations.BootEntersLoop : Prop :=
  (∀ s : State, s.fg = .boot → exec .boot s = .next { s with
    ifgA := false, ifgZ := false, ifgOvf := false, ifgCmp := false, ifgRx := false, gie := true, fg := .sleep }) ∧
  (∀ s : State, s.fg ≠ .boot → exec .boot s = .refused .notEnabled)

/-- Rule R242 (decision D12, D28): the foreground leaves the sleep exactly when `wake = 1`. -/
def Obligations.SleepEndsOnWake : Prop :=
  (∀ s : State, s.fg = .sleep → s.wake = true → exec .sleep s = .next { s with wake := false, fg := .take }) ∧
  (∀ s : State, (s.fg ≠ .sleep ∨ s.wake = false) → exec .sleep s = .refused .notEnabled)

/-- Rules R178, R261 and R269 (decisions D18, D25): `MB_TAKE` applies the mailbox's command, whatever its selector, and
leaves `mb_ready` set; with nothing ready it goes on to `F_DINT`. -/
def Obligations.TakeAppliesMailbox : Prop :=
  (∀ s : State, s.fg = .take → s.mbReady = false → exec .mbTake s = .next { s with fg := .dint }) ∧
  (∀ s : State, s.fg = .take → s.mbReady = true → s.cfg.gen = .legacy →
    exec .mbTake s = .next { s with doPort := s.mbByte, fg := .clear }) ∧
  (∀ (s : State) (sel : Selector), s.fg = .take → s.mbReady = true → s.cfg.gen = .current → s.cfg.wf = true →
    s.mbCommand.op = s.cfg.opsel.code sel →
    ∃ t, exec (sel.command s.mbCommand.pin s.mbCommand.val) s = .next t ∧
      exec .mbTake s = .next { t with fg := .clear }) ∧
  (∀ s : State, s.fg = .take → s.mbReady = true → s.cfg.gen = .current → s.mbCommand.op ∉ s.cfg.opsel.codes →
    exec .mbTake s = .next { s with fg := .clear }) ∧
  (∀ s : State, s.fg ≠ .take → exec .mbTake s = .refused .notEnabled)

/-- Rule R179 (decision D25): `MB_CLEAR` clears `mb_ready` and nothing else of the mailbox. -/
def Obligations.ClearEmptiesMailbox : Prop :=
  (∀ s : State, s.fg = .clear → exec .mbClear s = .next { s with mbReady := false, fg := .dint }) ∧
  (∀ s : State, s.fg ≠ .clear → exec .mbClear s = .refused .notEnabled)

/-- Rule R191: `DINT` masks every handler and clears no pending flag; while `gie = 0` a set flag stays set until `BOOT`
or `EINT` is past. -/
def Obligations.DintMasksHandlers : Prop :=
  (∀ s : State, s.fg = .dint → exec .dint s = .next { s with gie := false, fg := .snap }) ∧
  (∀ s : State, s.fg ≠ .dint → exec .dint s = .refused .notEnabled) ∧
  (∀ (s : State) (src : Source), s.gie = false → exec (handlerOf src) s = .refused .notEnabled) ∧
  (∀ (i : Instr) (s t : State) (src : Source), s.gie = false → i ≠ .boot → exec i s = .next t →
    pending src s = true → pending src t = true) ∧
  (∀ (s : State) (src : Source), s.fg = .eint → pending src s = true →
    ∃ t u, exec .eint s = .next t ∧ exec (handlerOf src) t = .next u)

/-- Rules R192 and R110 (decisions D3, D23, D24, D38): `SNAP` of a `CURRENT` block leaves in the buffer the packed
17-byte frame that carries the live registers, changes no byte outside it and no other register. THE MODEL'S CHOICE
(notes/assumptions/4.md, DEDUCED; the spec states neither): that a `wt` or `ut` narrower than its field keeps its signed
value, and that for `CNT_W` other than 16 the clock field splits into `high` and `low` at bit `CNT_W` (rules R116 and
R230 write `clk[31:16]` and `clk[15:0]`). Decision D3 speaks of registers as wide as their fields, and of wider ones. -/
def Obligations.SnapLaysCurrentFrame : Prop :=
  (∀ s : State, s.cfg.gen = .current → s.fg = .snap →
    ∃ m r, exec .snap s = .next { s with buf := m, fg := .eint } ∧ carriesRegisters s r ∧
      (∀ a, a < 17 → Memory.read m a =
        (frame17Bytes s.cfg.endian (recordClock r) r.wt r.ut s.diGen s.diAux)[a]?) ∧
      (∀ a, 17 ≤ a → Memory.read m a = Memory.read s.buf a)) ∧
  (∀ s : State, s.cfg.gen = .current → s.fg ≠ .snap → exec .snap s = .refused .notEnabled) ∧
  (∀ s : State, s.cfg.gen = .legacy → exec .snap s = .refused .otherGeneration)

/-- Rules R193 and R111 (decisions D3, D23, D24, D38): the same for a `LEGACY` block and its 14-byte frame. THE
MODEL'S CHOICE (notes/assumptions/4.md, DEDUCED; the spec states neither): that a `wt` or `ut` narrower than its field
keeps its signed value, which decision D3 does not cover, and that a legal `LEGACY` build has `CNT_W = 16`. -/
def Obligations.SnapLaysLegacyFrame : Prop :=
  (∀ s : State, s.cfg.gen = .legacy → s.fg = .snap →
    ∃ m r, exec .snapLegacy s = .next { s with buf := m, fg := .eint } ∧ carriesRegisters s r ∧
      (∀ a, a < 14 → Memory.read m a = (frame14Bytes s.cfg.endian r.low r.high r.wt r.ut s.diPort)[a]?) ∧
      (∀ a, 14 ≤ a → Memory.read m a = Memory.read s.buf a)) ∧
  (∀ s : State, s.cfg.gen = .legacy → s.fg ≠ .snap → exec .snapLegacy s = .refused .notEnabled) ∧
  (∀ s : State, s.cfg.gen = .current → exec .snapLegacy s = .refused .otherGeneration)

/-- Rule R194: `EINT` re-enables every pending handler and starts the transmission at offset 0; no handler touches the
buffer, and the one way out of the critical section's `SNAP` is to `EINT`. -/
def Obligations.EintReleasesHandlers : Prop :=
  (∀ s : State, s.fg = .eint → exec .eint s = .next { s with gie := true, txIdx := 0, fg := .tx }) ∧
  (∀ s : State, s.fg ≠ .eint → exec .eint s = .refused .notEnabled) ∧
  (∀ (s t : State) (src : Source), exec .eint s = .next t → pending src s = true → handlerEnabled src t = true) ∧
  (∀ (s t : State) (src : Source), exec (handlerOf src) s = .next t → t.buf = s.buf) ∧
  (∀ s t : State, exec (snapOf s.cfg.gen) s = .next t → t.fg = .eint)

/-- Rule R211 (decision D27): `TXB` sends the byte at `tx_idx`, and the last one ends the phase; with the transmitter
not ready it has no step. THE MODEL'S CHOICE (notes/assumptions/6.md and 7.md; spec/93 U11 and rule R61 say that no run
meets it): a `TXB` outside the frame, or of a byte no `SNAP` has written, faults by name. -/
def Obligations.TransmitSendsOneByte : Prop :=
  (∀ (s : State) (b : Byte), s.fg = .tx → s.txRdy = true → s.txIdx < s.cfg.frameLen →
    Memory.read s.buf s.txIdx = some b →
    exec .txb s = .next { s with
      txOut := s.txOut ++ [b], txRdy := false, txIdx := s.txIdx + 1
      fg := if s.txIdx + 1 = s.cfg.frameLen then .sleep else .tx }) ∧
  (∀ s : State, (s.fg ≠ .tx ∨ s.txRdy = false) → exec .txb s = .refused .notEnabled) ∧
  (∀ s : State, s.fg = .tx → s.txRdy = true → s.cfg.frameLen ≤ s.txIdx → exec .txb s = .fault .bufferOffset) ∧
  (∀ s : State, s.fg = .tx → s.txRdy = true → s.txIdx < s.cfg.frameLen → Memory.read s.buf s.txIdx = none →
    exec .txb s = .fault .bufferUnwritten)

/-- Rules R240 and R40 (decisions D28, D35): at most one foreground operation has a step in a state, each goes to a
phase that rule R240 allows, and no environment or handler step moves the phase. -/
def Obligations.ForegroundOrder : Prop :=
  (∀ (i j : Instr) (s : State), i.agent = some .foreground → j.agent = some .foreground →
    canStep i s = true → canStep j s = true → i = j) ∧
  (∀ (i : Instr) (s t : State), i.agent = some .foreground → exec i s = .next t → follows s.fg t.fg = true) ∧
  (∀ (i : Instr) (s t : State), i.agent ≠ some .foreground → exec i s = .next t → t.fg = s.fg)

/-! ## Host commands -/

/-- Rules R262 and R263 (decision D20): the configure commands record the mode byte of pin `k + 1`, for each of the
twelve pins. -/
def Obligations.ConfigurePinRecordsMode : Prop :=
  (∀ (k : Fin 12) (m : Byte) (s : State), s.cfg.gen = .current →
    exec (.cfgd (BitVec.ofNat 8 (k + 1)) m) s = .next { s with genMode := s.genMode.set k m }) ∧
  (∀ (k : Fin 12) (m : Byte) (s : State), s.cfg.gen = .current →
    exec (.cfga (BitVec.ofNat 8 (k + 1)) m) s = .next { s with auxMode := s.auxMode.set k m })

/-- Rule R264: write-general-pin sets the level of that general pin and nothing else, whatever its mode; `lvl` is rule
R270's. -/
def Obligations.WriteGeneralPin : Prop :=
  (∀ (c : Cfg) (p v : Byte), encode c (.wrd p v) = [0xA9, c.opsel.wrd, p, v]) ∧
  (∀ (p v : Byte) (s : State), s.cfg.gen = .current → (p = 0 ∨ 13 ≤ p.toNat) → exec (.wrd p v) s = .next s) ∧
  (∀ (k : Fin 12) (v : Byte) (s : State), s.cfg.gen = .current →
    exec (.wrd (BitVec.ofNat 8 (k + 1)) v) s = .next { s with genOut := s.genOut.set k (lvl v) }) ∧
  (∀ s : State, s.cfg.gen = .current → exec (.wrd 5 1) s = .next { s with genOut := s.genOut.set 4 true })

/-- Rules R265 and R270 (decisions D20, D21): write-general-pin-mirrored writes the general pin, and under the default
`MIRROR_EFFECT` the auxiliary pin of the same number; under any other only `aux_out` is open. The level of a value
byte is 0 for 0 and 1 otherwise. -/
def Obligations.WriteMirroredPin : Prop :=
  (∀ (k : Fin 12) (v : Byte) (s : State), s.cfg.gen = .current → s.cfg.mirror = .sameAux →
    exec (.wrdm (BitVec.ofNat 8 (k + 1)) v) s =
      .next { s with genOut := s.genOut.set k (v != 0), auxOut := s.auxOut.set k (v != 0) }) ∧
  (∀ (k : Fin 12) (v : Byte) (s : State), s.cfg.gen = .current → s.cfg.mirror = .other →
    ∃ x, exec (.wrdm (BitVec.ofNat 8 (k + 1)) v) s =
      .next { s with genOut := s.genOut.set k (v != 0), auxOut := x }) ∧
  (∀ v : Byte, lvl v = (v != 0))

/-- Rule R266: write-auxiliary-pin, as rule R264 on the auxiliary bus. -/
def Obligations.WriteAuxiliaryPin : Prop :=
  (∀ (c : Cfg) (p v : Byte), encode c (.wra p v) = [0xA9, c.opsel.wra, p, v]) ∧
  (∀ (p v : Byte) (s : State), s.cfg.gen = .current → (p = 0 ∨ 13 ≤ p.toNat) → exec (.wra p v) s = .next s) ∧
  (∀ (k : Fin 12) (v : Byte) (s : State), s.cfg.gen = .current →
    exec (.wra (BitVec.ofNat 8 (k + 1)) v) s = .next { s with auxOut := s.auxOut.set k (lvl v) }) ∧
  (∀ s : State, s.cfg.gen = .current → exec (.wra 1 0) s = .next { s with auxOut := s.auxOut.set 0 (lvl 0) })

/-- Rule R268: a pin byte of 0 or of 13 .. 255 makes each of the five commands do nothing; the command is posted all
the same, and taking it consumes the slot. -/
def Obligations.OutOfRangePinDoesNothing : Prop :=
  (∀ (sel : Selector) (p v : Byte) (s : State), s.cfg.gen = .current → (p = 0 ∨ 13 ≤ p.toNat) →
    exec (sel.command p v) s = .next s) ∧
  (∀ s : State, s.cfg.gen = .current → s.fg = .take → s.mbReady = true →
    (s.mbCommand.pin = 0 ∨ 13 ≤ s.mbCommand.pin.toNat) →
    ∃ t, exec .mbTake s = .next { s with fg := .clear } ∧ exec .mbClear { s with fg := .clear } = .next t ∧
      t.mbReady = false) ∧
  (∀ s : State, s.cfg.gen = .current → s.gie = true → s.ifgRx = true → s.pstate = .awaitValue →
    ∃ t, exec .isrRx s = .next t ∧ t.mbCommand = { op := s.pOp, pin := s.pPin, val := s.rxReg } ∧ t.mbReady = true)

/-- Rule R104: every byte a `LEGACY` block receives is a complete command, and its bits become the output port. -/
def Obligations.RawByteBecomesOutputPort : Prop :=
  (∀ (c : Cfg) (b : Byte) (rest : List Byte), c.gen = .legacy → decode c .cmd1 (b :: rest) = .ok (.wrport b, rest)) ∧
  (∀ (b : Byte) (s : State), s.cfg.gen = .legacy → exec (.wrport b) s = .next { s with doPort := b })

/-- Rule R271: no command changes anything but the digital output registers; in particular it transmits nothing and
changes no register of the decoder, the clock or the framer. -/
def Obligations.CommandsTouchOnlyOutputs : Prop :=
  ∀ (i : Instr) (s t : State), i.isCommand = true → exec i s = .next t →
    t = { s with
      genMode := t.genMode, auxMode := t.auxMode, genOut := t.genOut, auxOut := t.auxOut, doPort := t.doPort }

/-- Rules R100, R175, R221 and R261 together: the four bytes of a command, each received and served, and then
`MB_TAKE`, have on the digital outputs the effect of the command's row. -/
def Obligations.HostCommandTakesEffect : Prop :=
  ∀ (sel : Selector) (p v : Byte) (s : State) (rest : List Instr),
    s.cfg.wf = true → s.cfg.gen = .current → s.gie = true → s.pstate = .awaitStart → s.fg = .take →
    s.schedule = feed (encode s.cfg (sel.command p v)) ++ .mbTake :: rest →
    ∃ t u, exec (sel.command p v) s = .next t ∧ runSteps 9 s = .next u ∧ sameOutputs t u ∧
      u.fg = .clear ∧ u.mbReady = true ∧ u.pstate = .awaitStart ∧ u.schedule = rest

/-- Rule R180 (derived in the spec): of two commands that arrive before the take only the second has an effect, and
the first has none. -/
def Obligations.LastCommandWins : Prop :=
  (∀ (sel sel' : Selector) (p v p' v' : Byte) (s : State) (rest : List Instr),
    s.cfg.wf = true → s.cfg.gen = .current → s.gie = true → s.pstate = .awaitStart → s.fg = .take →
    s.schedule = feed (encode s.cfg (sel.command p v) ++ encode s.cfg (sel'.command p' v')) ++ .mbTake :: rest →
    ∃ t u, exec (sel'.command p' v') s = .next t ∧ runSteps 17 s = .next u ∧ sameOutputs t u ∧ u.fg = .clear) ∧
  (∀ (b b' : Byte) (s : State) (rest : List Instr),
    s.cfg.gen = .legacy → s.gie = true → s.fg = .take → s.schedule = feed [b, b'] ++ .mbTake :: rest →
    ∃ u, runSteps 5 s = .next u ∧ u.doPort = b' ∧ u.fg = .clear)

/-- Rule R181 (derived in the spec): a command posted between `MB_TAKE` and its `MB_CLEAR` is erased without being
applied. -/
def Obligations.TakeClearWindowErasesCommand : Prop :=
  ∀ s : State, s.fg = .take → s.mbReady = true → s.gie = true → s.ifgRx = true →
    ∃ t u v, exec .mbTake s = .next t ∧ exec .isrRx t = .next u ∧ exec .mbClear u = .next v ∧
      v.mbReady = false ∧ sameOutputs t v ∧ v.fg = .dint ∧
      (s.cfg.gen = .legacy → v.mbByte = s.rxReg) ∧
      (s.cfg.gen = .current → s.pstate = .awaitValue →
        v.mbCommand = { op := s.pOp, pin := s.pPin, val := s.rxReg })

/-- Rule R355 (derived in the spec): three bytes that are not the start byte bring the parser to `AWAIT_START` from
any state. -/
def Obligations.ThreeBytesRecoverParser : Prop :=
  ∀ (st : ParserState) (op pin b₁ b₂ b₃ : Byte), b₁ ≠ 0xA9 → b₂ ≠ 0xA9 → b₃ ≠ 0xA9 →
    let r₁ := cmdParse st op pin b₁
    let r₂ := cmdParse r₁.pstate r₁.pOp r₁.pPin b₂
    (cmdParse r₂.pstate r₂.pOp r₂.pPin b₃).pstate = .awaitStart

/-! ## Frames -/

/-- Rule R13: `MemWrite(addr, n, v)` stores byte `k` of `v` at offset `addr + k` (`LE`) or `addr + n - 1 - k` (`BE`)
and touches no other offset, and `MemRead(addr, n)` gives the value back, for `n` = 1, 2 and 4 as for any other. -/
def Obligations.MemWriteLaysFieldBytes : Prop :=
  ∀ (e : Endian) (m : Memory) (addr n : Nat) (v : BitVec (8 * n)),
    (∀ k, k < n → e = .le → Memory.read (Memory.writeField e m addr n v) (addr + k) = some (v.extractLsb' (8 * k) 8)) ∧
    (∀ k, k < n → e = .be →
      Memory.read (Memory.writeField e m addr n v) (addr + k) = some (v.extractLsb' (8 * (n - 1 - k)) 8)) ∧
    (∀ a, a < addr ∨ addr + n ≤ a → Memory.read (Memory.writeField e m addr n v) a = Memory.read m a) ∧
    Memory.readField e (Memory.writeField e m addr n v) addr n (8 * n) = some v

/-- THE MODEL'S CHOICE of a meaning for the layout rows `FRAME17` and `FRAME14` (notes/assumptions/9.md), with the
layouts of rules R110 and R111: the row's frame stands in the buffer, and no byte outside it and no register changes.
-/
def Obligations.FrameRowsLayTheirBytes : Prop :=
  ∀ (r : FrameRecord) (s : State), r.fits s.cfg.gen = true →
    ∃ m, exec r.toInstr s = .next { s with buf := m } ∧
      (∀ a, a < s.cfg.frameLen → Memory.read m a = (frameBytes s.cfg.endian r)[a]?) ∧
      (∀ a, s.cfg.frameLen ≤ a → Memory.read m a = Memory.read s.buf a)

/-- Rule R230 (decision D33), with THE MODEL'S CHOICE of where the result stands (notes/assumptions/10.md): a sequence
of `FRAME_LEN` bytes is a frame exactly if its three constant bytes are right; the block's registers do not change. -/
def Obligations.FrameDecodeRecordsResult : Prop :=
  (∀ (f : List Byte) (s : State), exec (.frameDecode f) s = .next { s with hostFrame := frameDecode s.cfg f }) ∧
  (∀ (c : Cfg) (f : List Byte), f.length = c.frameLen →
    ((frameDecode c f).isSome = true ↔
      f[0]? = some 0x45 ∧ f[1]? = some (BitVec.ofNat 8 c.frameLen) ∧ f[c.frameLen - 1]? = some 0x0A))

/-- Rules R200 and R232 (derived in the spec): decoding the buffer just after `SNAP` recovers the clock, tick and
digital-input values that `SNAP` read, in both generations and both byte orders. The rules' round trip is that of the
spec's widths: `CNT_W = 16` and a `wt` and `ut` as wide as their fields. For other widths `carriesRegisters` says what the
record holds: a `wt` or `ut` wider than its field is not recovered, only its low bits are (decision D3's remark). THE
MODEL'S CHOICE (notes/assumptions/4.md, DEDUCED; the spec states neither): a narrower one is recovered as its signed
value, and for a legal `CNT_W` other than 16 the registers `high` and `low` are the decoded clock split at bit `CNT_W`,
where rule R230 splits it at bit 16. -/
def Obligations.SnapshotRoundTrip : Prop :=
  ∀ s : State, s.fg = .snap →
    ∃ t f r, exec (snapOf s.cfg.gen) s = .next t ∧ frameInBuffer t = some f ∧ frameDecode t.cfg f = some r ∧
      carriesRegisters s r

/-- Rule R232 (derived in the spec): a decoder of the other byte order accepts every frame and reads each multi-byte
field reversed. -/
def Obligations.WrongByteOrderReversesFields : Prop :=
  ∀ (c : Cfg) (e : Endian) (r : FrameRecord), r.fits c.gen = true → e ≠ c.endian →
    frameDecode c (frameBytes e r) = some (swapRecord r)

/-- Rule R117 (derived in the spec): with `LE` the clock bytes of the two layouts are equal; with `BE` they are each
other's halves exchanged. -/
def Obligations.ClockBytesOfBothLayouts : Prop :=
  ∀ (low high wt : Word16) (ut : Word32) (gen aux : Word16) (port : Byte),
    ((frame17Bytes .le (high ++ low) wt ut gen aux).drop 2).take 4 = fieldBytes .le 2 low ++ fieldBytes .le 2 high ∧
    ((frame14Bytes .le low high wt ut port).drop 2).take 4 = fieldBytes .le 2 low ++ fieldBytes .le 2 high ∧
    ((frame17Bytes .be (high ++ low) wt ut gen aux).drop 2).take 4 = fieldBytes .be 2 high ++ fieldBytes .be 2 low ∧
    ((frame14Bytes .be low high wt ut port).drop 2).take 4 = fieldBytes .be 2 low ++ fieldBytes .be 2 high

/-- Rule R213 (derived in the spec): from `EINT`, `FRAME_LEN` transmissions append the buffer's frame to `tx_out`,
byte by byte in order, and the foreground is back at the sleep. -/
def Obligations.FrameOnTheWire : Prop :=
  ∀ (s : State) (f : List Byte) (rest : List Instr), s.fg = .eint → frameInBuffer s = some f →
    s.schedule = .eint :: (List.replicate s.cfg.frameLen [Instr.txrdy, Instr.txb]).flatten ++ rest →
    ∃ t, runSteps (1 + 2 * s.cfg.frameLen) s = .next t ∧ t.txOut = s.txOut ++ f ∧ t.fg = .sleep ∧
      t.txIdx = s.cfg.frameLen ∧ t.gie = true ∧ t.buf = s.buf ∧ t.schedule = rest

/-- Rule R231 (decision D33): from the true start of an uncorrupted output the procedure delivers exactly the frames
sent, and nothing for a frame still being sent. -/
def Obligations.ResyncDeliversFramesSent : Prop :=
  (∀ (c : Cfg) (rs : List FrameRecord) (part : List Byte), (∀ r ∈ rs, r.fits c.gen = true) →
    part.length < c.frameLen → resync c 0 (rs.flatMap (frameBytes c.endian) ++ part) = rs) ∧
  (∀ s : State, Inv s → ∃ rs : List FrameRecord, resync s.cfg 0 s.txOut = rs ∧
    s.txOut = rs.flatMap (frameBytes s.cfg.endian) ++ sentPart s)

/-- Rules R100, R104, R110 and R111: decoding the encoding of a well-formed operation gives it back with every operand,
and the bytes after it. -/
def Obligations.DecodeOfEncode : Prop :=
  ∀ (c : Cfg) (i : Instr) (rest : List Byte), c.wf = true → i.wf c = true → i.format ≠ .evt →
    decode c i.format (encode c i ++ rest) = .ok (i, rest)

/-- The other direction: only the encoding of a well-formed operation of the format decodes, and to that operation. -/
def Obligations.EncodeOfDecode : Prop :=
  ∀ (c : Cfg) (fmt : Format) (bs rest : List Byte) (i : Instr), decode c fmt bs = .ok (i, rest) →
    encode c i ++ rest = bs ∧ i.format = fmt ∧ i.wf c = true

/-- Words of the opcode table, written out from the encodings of rules R100, R104 and R124, decode to their rows. -/
def Obligations.TableWordsDecode : Prop :=
  decodeTableWord 32 0xA9000301 = some (.cfgd 3 1) ∧ decodeTableWord 32 0xA9010C00 = some (.cfga 12 0) ∧
  decodeTableWord 32 0xA9020501 = some (.wrd 5 1) ∧ decodeTableWord 32 0xA9030201 = some (.wrdm 2 1) ∧
  decodeTableWord 32 0xA9040100 = some (.wra 1 0) ∧ decodeTableWord 8 0x5A = some (.wrport 0x5A) ∧
  decodeTableWord 32 0xA9050501 = none ∧ decodeTableWord 32 0x00020501 = none

/-! ## Reset -/

/-- Rules R47, R48 and R336 (decision D29, D30): the registers after power-on, and the launch state just after `BOOT`,
for every legal parameter and every value of what rule R47 leaves open. -/
def Obligations.PowerOnAndLaunchState : Prop :=
  ∀ (c : Cfg) (x : PowerOn) (sched : List Instr),
    let r := State.powerOn c x sched
    (r.wt = 0 ∧ r.ut = 0 ∧ r.arm = c.armReset ∧ r.low = 0 ∧ r.high = 0 ∧ r.thr = c.cmpStep ∧ r.mbReady = false ∧
      r.pstate = .awaitStart ∧ r.txIdx = 0 ∧ r.txOut = [] ∧ r.gie = false ∧ r.wake = false ∧ r.fg = .boot) ∧
    ∃ t, exec .boot r = .next t ∧ t.fg = .sleep ∧ t.gie = true ∧ t.wake = false ∧ (∀ src, pending src t = false) ∧
      t.mbReady = false ∧ t.pstate = .awaitStart ∧ t.wt = 0 ∧ t.ut = 0 ∧ t.high = 0 ∧ t.thr.toNat = c.cmpStep.toNat ∧
      t.arm = c.armReset ∧ t.txIdx = 0 ∧ t.txOut = []

/-! ## The whole machine -/

/-- Rule R70 in the model's names (the schedule and the waiting step are THE MODEL'S CHOICE): the chosen operation
runs if it has a step in this state; if not, only the choice is used up (notes/assumptions/1.md and 2.md). -/
def Obligations.StepRunsScheduledOperation : Prop :=
  (∀ (s : State) (i : Instr) (is : List Instr), s.schedule = i :: is →
    (canStep i s = true → step s = exec i { s with schedule := is }) ∧
    (canStep i s = false → step s = .next { s with schedule := is })) ∧
  (∀ s : State, s.schedule = [] →
    (canStep (Config.draw s.drawn) s = true → step s = exec (Config.draw s.drawn) { s with drawn := s.drawn + 1 }) ∧
    (canStep (Config.draw s.drawn) s = false → step s = .next { s with drawn := s.drawn + 1 }))

/-- A step runs the decoded command: when the foreground is about to take a ready mailbox whose bytes decode to `i`,
the step is `i`'s meaning and then the advance to `F_CLEAR`. -/
def Obligations.TakeStepRunsDecodedCommand : Prop :=
  (∀ (s : State) (i : Instr) (is : List Instr), s.schedule = .mbTake :: is → s.fg = .take → s.mbReady = true →
    s.cfg.gen = .current →
    decode s.cfg .cmd4 [Config.cmdStart, s.mbCommand.op, s.mbCommand.pin, s.mbCommand.val] = .ok (i, []) →
    ∃ t, exec i { s with schedule := is } = .next t ∧ step s = .next { t with fg := .clear }) ∧
  (∀ (s : State) (i : Instr) (is : List Instr), s.schedule = .mbTake :: is → s.fg = .take → s.mbReady = true →
    s.cfg.gen = .legacy → decode s.cfg .cmd1 [s.mbByte] = .ok (i, []) →
    ∃ t, exec i { s with schedule := is } = .next t ∧ step s = .next { t with fg := .clear })

/-- Rule R15 (decision D14): an operation of an agent whose enabling condition is false has no step; one whose
condition holds answers a next state, except a `TXB` outside the frame, which the invariant rules out. -/
def Obligations.EnabledExactlyWhenItSteps : Prop :=
  (∀ (i : Instr) (s : State), i.agent ≠ none → i.wf s.cfg = true → canStep i s = false →
    exec i s = .refused .notEnabled) ∧
  (∀ (i : Instr) (s : State), canStep i s = true → i ≠ .txb → ∃ t, exec i s = .next t)

/-- Rules R46 and R296 (derived in the spec): who writes each register. A change of a register by an operation of an
agent names the operation (the host commands run inside `MB_TAKE`). -/
def Obligations.WritersOfRegisters : Prop :=
  ∀ (i : Instr) (s t : State), i.agent ≠ none → exec i s = .next t →
    (t.wt.toNat ≠ s.wt.toNat → i = .isrA ∨ i = .isrZ) ∧
    (t.ut.toNat ≠ s.ut.toNat ∨ t.arm ≠ s.arm → i = .isrA) ∧
    (s.ifgA = true ∧ t.ifgA = false → i = .isrA ∨ i = .boot) ∧
    (s.ifgA = false ∧ t.ifgA = true → ∃ a b z, i = .pin a b z) ∧
    (s.ifgZ = true ∧ t.ifgZ = false → i = .isrZ ∨ i = .boot) ∧
    (s.ifgZ = false ∧ t.ifgZ = true → ∃ a b z, i = .pin a b z) ∧
    (t.pinA ≠ s.pinA ∨ t.pinB ≠ s.pinB ∨ t.pinZ ≠ s.pinZ → ∃ a b z, i = .pin a b z) ∧
    (t.low.toNat ≠ s.low.toNat → i = .tick) ∧
    (t.high.toNat ≠ s.high.toNat → i = .isrOvf) ∧
    (t.thr.toNat ≠ s.thr.toNat → i = .isrCmp) ∧
    (s.ifgOvf = true ∧ t.ifgOvf = false → i = .isrOvf ∨ i = .boot) ∧
    (s.ifgCmp = true ∧ t.ifgCmp = false → i = .isrCmp ∨ i = .boot) ∧
    (s.ifgCmp = false ∧ t.ifgCmp = true → i = .tick) ∧
    (t.rxReg ≠ s.rxReg → ∃ b, i = .rxb b) ∧
    (s.ifgRx = true ∧ t.ifgRx = false → i = .isrRx ∨ i = .boot) ∧
    (s.ifgRx = false ∧ t.ifgRx = true → ∃ b, i = .rxb b) ∧
    (t.mbByte ≠ s.mbByte ∨ t.mbCommand ≠ s.mbCommand → i = .isrRx) ∧
    (s.mbReady = false ∧ t.mbReady = true → i = .isrRx) ∧
    (s.mbReady = true ∧ t.mbReady = false → i = .mbClear) ∧
    (t.pstate ≠ s.pstate ∨ t.pOp ≠ s.pOp ∨ t.pPin ≠ s.pPin → i = .isrRx ∧ s.cfg.gen = .current) ∧
    (t.buf ≠ s.buf → i = snapOf s.cfg.gen) ∧
    (t.txIdx ≠ s.txIdx → i = .eint ∨ i = .txb) ∧
    (s.txRdy = false ∧ t.txRdy = true → i = .txrdy) ∧
    (s.txRdy = true ∧ t.txRdy = false → i = .txb) ∧
    (t.txOut ≠ s.txOut → i = .txb) ∧
    (t.gie ≠ s.gie → i = .boot ∨ i = .dint ∨ i = .eint) ∧
    (s.wake = false ∧ t.wake = true → ∃ src, i = handlerOf src ∧ s.cfg.wakeSet.has src = true) ∧
    (s.wake = true ∧ t.wake = false → i = .sleep) ∧
    (t.fg ≠ s.fg → i.agent = some .foreground) ∧
    (¬ sameOutputs s t → i = .mbTake ∧ s.mbReady = true) ∧
    (t.diGen ≠ s.diGen ∨ t.diAux ≠ s.diAux ∨ t.diPort ≠ s.diPort → ∃ d, i = .din d) ∧
    t.cfg = s.cfg ∧ t.schedule = s.schedule ∧ t.drawn = s.drawn ∧ t.hostFrame = s.hostFrame

/-- Rules R73 and R74 (the second derived in the spec): while `gie = 0` no step of the block changes a register that
only handlers write. -/
def Obligations.CriticalSectionKeepsRegisters : Prop :=
  ∀ s t : State, s.gie = false → step s = .next t →
    t.cfg = s.cfg ∧ t.wt.toNat = s.wt.toNat ∧ t.ut.toNat = s.ut.toNat ∧ t.high.toNat = s.high.toNat ∧
      t.thr.toNat = s.thr.toNat ∧ t.arm = s.arm ∧ t.mbByte = s.mbByte ∧ t.mbCommand = s.mbCommand ∧
      t.pstate = s.pstate ∧ t.pOp = s.pOp ∧ t.pPin = s.pPin

/-- Rules R25 and R146 (derived in the spec): the two tick counters change by the same +1 or -1 in the same step of
`ISR_A`; the only other change of either is `ISR_Z` zeroing `wt`. -/
def Obligations.CountersMoveTogether : Prop :=
  ∀ (i : Instr) (s t : State), exec i s = .next t →
    t.cfg = s.cfg ∧
    ((t.ut.toNat = s.ut.toNat ∧ t.wt.toNat = s.wt.toNat) ∨
      (i = .isrA ∧ t.ut.toNat = (s.ut + 1).toNat ∧ t.wt.toNat = (s.wt + 1).toNat) ∨
      (i = .isrA ∧ t.ut.toNat = (s.ut - 1).toNat ∧ t.wt.toNat = (s.wt - 1).toNat) ∨
      (i = .isrZ ∧ t.ut.toNat = s.ut.toNat ∧ t.wt = 0))

/-- Rule R146 (c), derived in the spec: if no `ISR_Z` is among the next `n` operations, `wt` and `ut` change by the
same amount modulo `2^WT_W`; and if `wt` is 0 now, then afterwards `s(wt)` is `s(ut - ut0)`, the signed change of
`ut`, as long as that is less than `2^(WT_W - 1)` in size (`2^15` with the default width). -/
def Obligations.WrappedTicksFollowUnwrapped : Prop :=
  ∀ (n : Nat) (s t : State), s.cfg.wtW < s.cfg.utW → n ≤ s.schedule.length → Instr.isrZ ∉ s.schedule.take n →
    runSteps n s = .next t →
    let change := (t.ut.toInt - s.ut.toInt).bmod (2 ^ s.cfg.utW)
    t.wt.toInt - s.wt.toInt ≡ change [ZMOD (2 ^ s.cfg.wtW : Nat)] ∧
    (s.wt = 0 → change.natAbs < 2 ^ (s.cfg.wtW - 1) → t.wt.toInt = change)

/-- Rules R158 and R30 (derived in the spec): between two points with no overflow pending, and none lost between them,
the logical clock differs by `N × COUNTER_RANGE + (low2 - low1)` and by the number of ticks, modulo the clock's range
(`2^32` in every legal build), and the extension word gains `N`. -/
def Obligations.ClockDifferenceLaw : Prop :=
  (∀ s : State, clockNow s = s.high.toNat * s.cfg.counterRange + s.low.toNat) ∧
  (∀ (n : Nat) (s t : State), n ≤ s.schedule.length → s.fg ≠ .boot → keepsOverflows n s → runSteps n s = .next t →
    s.ifgOvf = false → t.ifgOvf = false →
    t.high.toNat = (s.high.toNat + wraps n s) % 2 ^ s.cfg.extW ∧
    clockNow t - clockNow s ≡ wraps n s * s.cfg.counterRange + (t.low.toNat - s.low.toNat) [ZMOD s.cfg.clockRange] ∧
    clockNow t - clockNow s ≡ (s.schedule.take n).count .tick [ZMOD s.cfg.clockRange])

/-- Rule R159 (derived in the spec): the clock that counts a pending wrap moves by one with each `TICK` and with
nothing else, unless the tick wraps while a wrap is still pending: then it falls one whole counter period short. -/
def Obligations.LostOverflowCostsOnePeriod : Prop :=
  ∀ (i : Instr) (s t : State), i.agent ≠ none → i ≠ .boot → exec i s = .next t →
    countedClock t ≡ countedClock s + (if i = .tick then 1 else 0)
      - (if i = .tick ∧ atMaximum s = true ∧ s.ifgOvf = true then s.cfg.counterRange else 0) [ZMOD s.cfg.clockRange]

/-- Rules R195 and R349 (decision D31): a snapshot taken with `ifg_ovf = 1` carries a clock one `COUNTER_RANGE` (65536
with the default width) below the one the registers show once `ISR_OVF` has run, `EINT` being the next operation; with
`ifg_ovf = 0` it carries the count. -/
def Obligations.PendingOverflowFrameClock : Prop :=
  (∀ s : State, s.cfg.wf = true → s.fg = .snap → s.ifgOvf = true →
    ∃ t u v f r, exec (snapOf s.cfg.gen) s = .next t ∧ frameInBuffer t = some f ∧ frameDecode t.cfg f = some r ∧
      exec .eint t = .next u ∧ exec .isrOvf u = .next v ∧
      clockNow v ≡ (recordClock r).toNat + s.cfg.counterRange [ZMOD s.cfg.clockRange]) ∧
  (∀ s : State, s.cfg.wf = true → s.fg = .snap → s.ifgOvf = false →
    ∃ t f r, exec (snapOf s.cfg.gen) s = .next t ∧ frameInBuffer t = some f ∧ frameDecode t.cfg f = some r ∧
      ((recordClock r).toNat : Int) = countedClock s)

/-- The invariant of rules R8, R61, R121, R213 and R240 holds at power-on, for every legal parameter and every value of
what rule R47 leaves open, and so at reset. -/
def Obligations.PowerOnMeetsInvariant : Prop :=
  (∀ (c : Cfg) (x : PowerOn) (sched : List Instr), c.wf = true → Inv (State.powerOn c x sched)) ∧ Inv State.reset

/-- Every step keeps the invariant, whatever the schedule: the buffer's form and range, `gie` by phase, the transmit
index, the frame in the buffer, and `tx_out` as whole well-formed frames and at most one proper prefix. -/
def Obligations.StepKeepsInvariant : Prop :=
  ∀ s t : State, Inv s → step s = .next t → Inv t

/-- Rule R290: nothing the block does stops it: in every state that meets the invariant a step answers a next state. -/
def Obligations.InvariantStepAnswersNext : Prop :=
  ∀ s : State, Inv s → ∃ t, step s = .next t
end

