-- ==== Sys2Proof/Laws/Bytes.lean ====
section
/-! SUPPORT. Field assembly: `fieldBytes` and `joinBytes` are inverse (rules R13 and R112). -/

namespace Sys2Proof

@[simp] theorem fieldBytes_length (e : Endian) (n : Nat) {w : Nat} (v : BitVec w) : (fieldBytes e n v).length = n := by
  cases e <;> simp [fieldBytes]

theorem fieldBytes_getElem?_le (n : Nat) {w : Nat} (v : BitVec w) (k : Nat) (h : k < n) :
    (fieldBytes .le n v)[k]? = some (byteOf v k) := by
  simp [fieldBytes, h]

theorem fieldBytes_getElem?_be (n : Nat) {w : Nat} (v : BitVec w) (k : Nat) (h : k < n) :
    (fieldBytes .be n v)[k]? = some (byteOf v (n - 1 - k)) := by
  simp [fieldBytes, h]

theorem byteOf_toNat {w : Nat} (v : BitVec w) (k : Nat) : (byteOf v k).toNat = v.toNat / 256 ^ k % 256 := by
  simp [byteOf, Nat.shiftRight_eq_div_pow, Nat.pow_mul]

theorem littleNat_append (xs ys : List Byte) : littleNat (xs ++ ys) = littleNat xs + 256 ^ xs.length * littleNat ys := by
  induction xs with
  | nil => simp [littleNat]
  | cons b bs ih => simp [littleNat, ih, Nat.pow_succ]; ring

theorem littleNat_lt (bs : List Byte) : littleNat bs < 256 ^ bs.length := by
  induction bs with
  | nil => simp [littleNat]
  | cons b bs ih => have := b.isLt; simp only [littleNat, List.length_cons, Nat.pow_succ]; omega

theorem littleNat_fieldBytes (n : Nat) {w : Nat} (v : BitVec w) :
    littleNat ((List.range n).map (byteOf v)) = v.toNat % 256 ^ n := by
  induction n with
  | zero => simp [littleNat, Nat.mod_one]
  | succ n ih =>
    rw [List.range_succ, List.map_append, littleNat_append, ih]
    simp [littleNat, byteOf_toNat, Nat.pow_succ, Nat.mod_mul]

/-- Reading a field back gives the value written, if the field has all of its bits. -/
theorem joinBytes_fieldBytes (e : Endian) (n w : Nat) (v : BitVec w) (h : w ≤ 8 * n) :
    joinBytes e w (fieldBytes e n v) = v := by
  have hv : v.toNat % 256 ^ n = v.toNat := by
    apply Nat.mod_eq_of_lt
    calc v.toNat < 2 ^ w := v.isLt
      _ ≤ 2 ^ (8 * n) := Nat.pow_le_pow_right (by omega) h
      _ = 256 ^ n := by rw [Nat.pow_mul]
  cases e <;> simp [joinBytes, fieldBytes, littleNat_fieldBytes, hv]

theorem littleNat_byte (bs : List Byte) (k : Nat) (h : k < bs.length) : littleNat bs / 256 ^ k % 256 = bs[k].toNat := by
  induction bs generalizing k with
  | nil => simp at h
  | cons b bs ih =>
    cases k with
    | zero => have := b.isLt; simp [littleNat]; omega
    | succ k =>
      have := b.isLt
      rw [Nat.pow_succ', ← Nat.div_div_eq_div_mul]
      have hd : littleNat (b :: bs) / 256 = littleNat bs := by simp only [littleNat]; omega
      rw [hd, ih k (by simpa using h)]; simp

theorem map_byteOf_join (bs : List Byte) (w : Nat) (h : 8 * bs.length ≤ w) :
    (List.range bs.length).map (byteOf (BitVec.ofNat w (littleNat bs))) = bs := by
  apply List.ext_getElem (by simp)
  intro k h1 h2
  apply BitVec.eq_of_toNat_eq
  have hlt : littleNat bs < 2 ^ w :=
    calc littleNat bs < 256 ^ bs.length := littleNat_lt bs
      _ = 2 ^ (8 * bs.length) := by rw [Nat.pow_mul]
      _ ≤ 2 ^ w := Nat.pow_le_pow_right (by omega) h
  simp [byteOf_toNat, Nat.mod_eq_of_lt hlt, littleNat_byte bs k h2]

/-- Writing back the value read gives the bytes read, if the value holds all of them. -/
theorem fieldBytes_joinBytes (e : Endian) (w n : Nat) (bs : List Byte) (hn : bs.length = n) (h : 8 * n ≤ w) :
    fieldBytes e n (joinBytes e w bs) = bs := by
  subst hn
  cases e with
  | le => simp [fieldBytes, joinBytes, map_byteOf_join bs w h]
  | be =>
    have := map_byteOf_join bs.reverse w (by simpa using h)
    simp only [List.length_reverse] at this
    simp [fieldBytes, joinBytes, this]

@[simp] theorem frame17Bytes_length (e : Endian) (clk : Word32) (wt : Word16) (ut : Word32) (gen aux : Word16) :
    (frame17Bytes e clk wt ut gen aux).length = 17 := by simp [frame17Bytes]

@[simp] theorem frame14Bytes_length (e : Endian) (low high wt : Word16) (ut : Word32) (port : Byte) :
    (frame14Bytes e low high wt ut port).length = 14 := by simp [frame14Bytes]

theorem frameBytes_length (e : Endian) (r : FrameRecord) (g : Gen) (h : r.fits g = true) :
    (frameBytes e r).length = g.frameLen := by
  rcases r with ⟨low, high, wt, ut, di⟩
  cases di <;> cases g <;> simp_all [FrameRecord.fits, DigitalIn.fits, frameBytes, Gen.frameLen]

end Sys2Proof
end

