-- ==== Sys2Proof/Laws/State.lean ====
section
/-! SUPPORT. One lemma per field per named state update: what the update leaves in the field. All are true by `rfl`. -/

namespace Sys2Proof.Machine

/-! ## `afterChoice` -/

@[simp] theorem afterChoice_cfg (s : State) : (afterChoice s).cfg = s.cfg := rfl
@[simp] theorem afterChoice_wt (s : State) : (afterChoice s).wt = s.wt := rfl
@[simp] theorem afterChoice_ut (s : State) : (afterChoice s).ut = s.ut := rfl
@[simp] theorem afterChoice_arm (s : State) : (afterChoice s).arm = s.arm := rfl
@[simp] theorem afterChoice_ifgA (s : State) : (afterChoice s).ifgA = s.ifgA := rfl
@[simp] theorem afterChoice_ifgZ (s : State) : (afterChoice s).ifgZ = s.ifgZ := rfl
@[simp] theorem afterChoice_pinA (s : State) : (afterChoice s).pinA = s.pinA := rfl
@[simp] theorem afterChoice_pinB (s : State) : (afterChoice s).pinB = s.pinB := rfl
@[simp] theorem afterChoice_pinZ (s : State) : (afterChoice s).pinZ = s.pinZ := rfl
@[simp] theorem afterChoice_low (s : State) : (afterChoice s).low = s.low := rfl
@[simp] theorem afterChoice_high (s : State) : (afterChoice s).high = s.high := rfl
@[simp] theorem afterChoice_thr (s : State) : (afterChoice s).thr = s.thr := rfl
@[simp] theorem afterChoice_ifgOvf (s : State) : (afterChoice s).ifgOvf = s.ifgOvf := rfl
@[simp] theorem afterChoice_ifgCmp (s : State) : (afterChoice s).ifgCmp = s.ifgCmp := rfl
@[simp] theorem afterChoice_rxReg (s : State) : (afterChoice s).rxReg = s.rxReg := rfl
@[simp] theorem afterChoice_ifgRx (s : State) : (afterChoice s).ifgRx = s.ifgRx := rfl
@[simp] theorem afterChoice_mbByte (s : State) : (afterChoice s).mbByte = s.mbByte := rfl
@[simp] theorem afterChoice_mbCommand (s : State) : (afterChoice s).mbCommand = s.mbCommand := rfl
@[simp] theorem afterChoice_mbReady (s : State) : (afterChoice s).mbReady = s.mbReady := rfl
@[simp] theorem afterChoice_pstate (s : State) : (afterChoice s).pstate = s.pstate := rfl
@[simp] theorem afterChoice_pOp (s : State) : (afterChoice s).pOp = s.pOp := rfl
@[simp] theorem afterChoice_pPin (s : State) : (afterChoice s).pPin = s.pPin := rfl
@[simp] theorem afterChoice_buf (s : State) : (afterChoice s).buf = s.buf := rfl
@[simp] theorem afterChoice_txIdx (s : State) : (afterChoice s).txIdx = s.txIdx := rfl
@[simp] theorem afterChoice_txRdy (s : State) : (afterChoice s).txRdy = s.txRdy := rfl
@[simp] theorem afterChoice_txOut (s : State) : (afterChoice s).txOut = s.txOut := rfl
@[simp] theorem afterChoice_gie (s : State) : (afterChoice s).gie = s.gie := rfl
@[simp] theorem afterChoice_fg (s : State) : (afterChoice s).fg = s.fg := rfl
@[simp] theorem afterChoice_wake (s : State) : (afterChoice s).wake = s.wake := rfl
@[simp] theorem afterChoice_genMode (s : State) : (afterChoice s).genMode = s.genMode := rfl
@[simp] theorem afterChoice_auxMode (s : State) : (afterChoice s).auxMode = s.auxMode := rfl
@[simp] theorem afterChoice_genOut (s : State) : (afterChoice s).genOut = s.genOut := rfl
@[simp] theorem afterChoice_auxOut (s : State) : (afterChoice s).auxOut = s.auxOut := rfl
@[simp] theorem afterChoice_doPort (s : State) : (afterChoice s).doPort = s.doPort := rfl
@[simp] theorem afterChoice_diGen (s : State) : (afterChoice s).diGen = s.diGen := rfl
@[simp] theorem afterChoice_diAux (s : State) : (afterChoice s).diAux = s.diAux := rfl
@[simp] theorem afterChoice_diPort (s : State) : (afterChoice s).diPort = s.diPort := rfl
@[simp] theorem afterChoice_hostFrame (s : State) : (afterChoice s).hostFrame = s.hostFrame := rfl
@[simp] theorem afterChoice_schedule (s : State) : (afterChoice s).schedule = s.schedule.tail := rfl
@[simp] theorem afterChoice_drawn (s : State) :
    (afterChoice s).drawn = if s.schedule.isEmpty then s.drawn + 1 else s.drawn := rfl

/-! ## `clearFlag` -/

@[simp] theorem clearFlag_cfg (src : Source) (s : State) : (clearFlag src s).cfg = s.cfg := rfl
@[simp] theorem clearFlag_wt (src : Source) (s : State) : (clearFlag src s).wt = s.wt := rfl
@[simp] theorem clearFlag_ut (src : Source) (s : State) : (clearFlag src s).ut = s.ut := rfl
@[simp] theorem clearFlag_arm (src : Source) (s : State) : (clearFlag src s).arm = s.arm := rfl
@[simp] theorem clearFlag_pinA (src : Source) (s : State) : (clearFlag src s).pinA = s.pinA := rfl
@[simp] theorem clearFlag_pinB (src : Source) (s : State) : (clearFlag src s).pinB = s.pinB := rfl
@[simp] theorem clearFlag_pinZ (src : Source) (s : State) : (clearFlag src s).pinZ = s.pinZ := rfl
@[simp] theorem clearFlag_low (src : Source) (s : State) : (clearFlag src s).low = s.low := rfl
@[simp] theorem clearFlag_high (src : Source) (s : State) : (clearFlag src s).high = s.high := rfl
@[simp] theorem clearFlag_thr (src : Source) (s : State) : (clearFlag src s).thr = s.thr := rfl
@[simp] theorem clearFlag_rxReg (src : Source) (s : State) : (clearFlag src s).rxReg = s.rxReg := rfl
@[simp] theorem clearFlag_mbByte (src : Source) (s : State) : (clearFlag src s).mbByte = s.mbByte := rfl
@[simp] theorem clearFlag_mbCommand (src : Source) (s : State) : (clearFlag src s).mbCommand = s.mbCommand := rfl
@[simp] theorem clearFlag_mbReady (src : Source) (s : State) : (clearFlag src s).mbReady = s.mbReady := rfl
@[simp] theorem clearFlag_pstate (src : Source) (s : State) : (clearFlag src s).pstate = s.pstate := rfl
@[simp] theorem clearFlag_pOp (src : Source) (s : State) : (clearFlag src s).pOp = s.pOp := rfl
@[simp] theorem clearFlag_pPin (src : Source) (s : State) : (clearFlag src s).pPin = s.pPin := rfl
@[simp] theorem clearFlag_buf (src : Source) (s : State) : (clearFlag src s).buf = s.buf := rfl
@[simp] theorem clearFlag_txIdx (src : Source) (s : State) : (clearFlag src s).txIdx = s.txIdx := rfl
@[simp] theorem clearFlag_txRdy (src : Source) (s : State) : (clearFlag src s).txRdy = s.txRdy := rfl
@[simp] theorem clearFlag_txOut (src : Source) (s : State) : (clearFlag src s).txOut = s.txOut := rfl
@[simp] theorem clearFlag_gie (src : Source) (s : State) : (clearFlag src s).gie = s.gie := rfl
@[simp] theorem clearFlag_fg (src : Source) (s : State) : (clearFlag src s).fg = s.fg := rfl
@[simp] theorem clearFlag_wake (src : Source) (s : State) : (clearFlag src s).wake = s.wake := rfl
@[simp] theorem clearFlag_genMode (src : Source) (s : State) : (clearFlag src s).genMode = s.genMode := rfl
@[simp] theorem clearFlag_auxMode (src : Source) (s : State) : (clearFlag src s).auxMode = s.auxMode := rfl
@[simp] theorem clearFlag_genOut (src : Source) (s : State) : (clearFlag src s).genOut = s.genOut := rfl
@[simp] theorem clearFlag_auxOut (src : Source) (s : State) : (clearFlag src s).auxOut = s.auxOut := rfl
@[simp] theorem clearFlag_doPort (src : Source) (s : State) : (clearFlag src s).doPort = s.doPort := rfl
@[simp] theorem clearFlag_diGen (src : Source) (s : State) : (clearFlag src s).diGen = s.diGen := rfl
@[simp] theorem clearFlag_diAux (src : Source) (s : State) : (clearFlag src s).diAux = s.diAux := rfl
@[simp] theorem clearFlag_diPort (src : Source) (s : State) : (clearFlag src s).diPort = s.diPort := rfl
@[simp] theorem clearFlag_schedule (src : Source) (s : State) : (clearFlag src s).schedule = s.schedule := rfl
@[simp] theorem clearFlag_drawn (src : Source) (s : State) : (clearFlag src s).drawn = s.drawn := rfl
@[simp] theorem clearFlag_hostFrame (src : Source) (s : State) : (clearFlag src s).hostFrame = s.hostFrame := rfl
@[simp] theorem clearFlag_ifgA (src : Source) (s : State) : (clearFlag src s).ifgA = (src != .a && s.ifgA) := rfl
@[simp] theorem clearFlag_ifgZ (src : Source) (s : State) : (clearFlag src s).ifgZ = (src != .z && s.ifgZ) := rfl
@[simp] theorem clearFlag_ifgOvf (src : Source) (s : State) : (clearFlag src s).ifgOvf = (src != .ovf && s.ifgOvf) := rfl
@[simp] theorem clearFlag_ifgCmp (src : Source) (s : State) : (clearFlag src s).ifgCmp = (src != .cmp && s.ifgCmp) := rfl
@[simp] theorem clearFlag_ifgRx (src : Source) (s : State) : (clearFlag src s).ifgRx = (src != .rx && s.ifgRx) := rfl

/-! ## `returnFromHandler` -/

@[simp] theorem returnFromHandler_cfg (src : Source) (s : State) : (returnFromHandler src s).cfg = s.cfg := rfl
@[simp] theorem returnFromHandler_wt (src : Source) (s : State) : (returnFromHandler src s).wt = s.wt := rfl
@[simp] theorem returnFromHandler_ut (src : Source) (s : State) : (returnFromHandler src s).ut = s.ut := rfl
@[simp] theorem returnFromHandler_arm (src : Source) (s : State) : (returnFromHandler src s).arm = s.arm := rfl
@[simp] theorem returnFromHandler_ifgA (src : Source) (s : State) : (returnFromHandler src s).ifgA = s.ifgA := rfl
@[simp] theorem returnFromHandler_ifgZ (src : Source) (s : State) : (returnFromHandler src s).ifgZ = s.ifgZ := rfl
@[simp] theorem returnFromHandler_pinA (src : Source) (s : State) : (returnFromHandler src s).pinA = s.pinA := rfl
@[simp] theorem returnFromHandler_pinB (src : Source) (s : State) : (returnFromHandler src s).pinB = s.pinB := rfl
@[simp] theorem returnFromHandler_pinZ (src : Source) (s : State) : (returnFromHandler src s).pinZ = s.pinZ := rfl
@[simp] theorem returnFromHandler_low (src : Source) (s : State) : (returnFromHandler src s).low = s.low := rfl
@[simp] theorem returnFromHandler_high (src : Source) (s : State) : (returnFromHandler src s).high = s.high := rfl
@[simp] theorem returnFromHandler_thr (src : Source) (s : State) : (returnFromHandler src s).thr = s.thr := rfl
@[simp] theorem returnFromHandler_ifgOvf (src : Source) (s : State) : (returnFromHandler src s).ifgOvf = s.ifgOvf := rfl
@[simp] theorem returnFromHandler_ifgCmp (src : Source) (s : State) : (returnFromHandler src s).ifgCmp = s.ifgCmp := rfl
@[simp] theorem returnFromHandler_rxReg (src : Source) (s : State) : (returnFromHandler src s).rxReg = s.rxReg := rfl
@[simp] theorem returnFromHandler_ifgRx (src : Source) (s : State) : (returnFromHandler src s).ifgRx = s.ifgRx := rfl
@[simp] theorem returnFromHandler_mbByte (src : Source) (s : State) : (returnFromHandler src s).mbByte = s.mbByte := rfl
@[simp] theorem returnFromHandler_mbCommand (src : Source) (s : State) : (returnFromHandler src s).mbCommand = s.mbCommand := rfl
@[simp] theorem returnFromHandler_mbReady (src : Source) (s : State) : (returnFromHandler src s).mbReady = s.mbReady := rfl
@[simp] theorem returnFromHandler_pstate (src : Source) (s : State) : (returnFromHandler src s).pstate = s.pstate := rfl
@[simp] theorem returnFromHandler_pOp (src : Source) (s : State) : (returnFromHandler src s).pOp = s.pOp := rfl
@[simp] theorem returnFromHandler_pPin (src : Source) (s : State) : (returnFromHandler src s).pPin = s.pPin := rfl
@[simp] theorem returnFromHandler_buf (src : Source) (s : State) : (returnFromHandler src s).buf = s.buf := rfl
@[simp] theorem returnFromHandler_txIdx (src : Source) (s : State) : (returnFromHandler src s).txIdx = s.txIdx := rfl
@[simp] theorem returnFromHandler_txRdy (src : Source) (s : State) : (returnFromHandler src s).txRdy = s.txRdy := rfl
@[simp] theorem returnFromHandler_txOut (src : Source) (s : State) : (returnFromHandler src s).txOut = s.txOut := rfl
@[simp] theorem returnFromHandler_gie (src : Source) (s : State) : (returnFromHandler src s).gie = s.gie := rfl
@[simp] theorem returnFromHandler_fg (src : Source) (s : State) : (returnFromHandler src s).fg = s.fg := rfl
@[simp] theorem returnFromHandler_genMode (src : Source) (s : State) : (returnFromHandler src s).genMode = s.genMode := rfl
@[simp] theorem returnFromHandler_auxMode (src : Source) (s : State) : (returnFromHandler src s).auxMode = s.auxMode := rfl
@[simp] theorem returnFromHandler_genOut (src : Source) (s : State) : (returnFromHandler src s).genOut = s.genOut := rfl
@[simp] theorem returnFromHandler_auxOut (src : Source) (s : State) : (returnFromHandler src s).auxOut = s.auxOut := rfl
@[simp] theorem returnFromHandler_doPort (src : Source) (s : State) : (returnFromHandler src s).doPort = s.doPort := rfl
@[simp] theorem returnFromHandler_diGen (src : Source) (s : State) : (returnFromHandler src s).diGen = s.diGen := rfl
@[simp] theorem returnFromHandler_diAux (src : Source) (s : State) : (returnFromHandler src s).diAux = s.diAux := rfl
@[simp] theorem returnFromHandler_diPort (src : Source) (s : State) : (returnFromHandler src s).diPort = s.diPort := rfl
@[simp] theorem returnFromHandler_schedule (src : Source) (s : State) : (returnFromHandler src s).schedule = s.schedule := rfl
@[simp] theorem returnFromHandler_drawn (src : Source) (s : State) : (returnFromHandler src s).drawn = s.drawn := rfl
@[simp] theorem returnFromHandler_hostFrame (src : Source) (s : State) : (returnFromHandler src s).hostFrame = s.hostFrame := rfl
@[simp] theorem returnFromHandler_wake (src : Source) (s : State) :
    (returnFromHandler src s).wake = (s.wake || s.cfg.wakeSet.has src) := rfl

/-! ## `transmit` -/

@[simp] theorem transmit_cfg (b : Byte) (s : State) : (transmit b s).cfg = s.cfg := rfl
@[simp] theorem transmit_wt (b : Byte) (s : State) : (transmit b s).wt = s.wt := rfl
@[simp] theorem transmit_ut (b : Byte) (s : State) : (transmit b s).ut = s.ut := rfl
@[simp] theorem transmit_arm (b : Byte) (s : State) : (transmit b s).arm = s.arm := rfl
@[simp] theorem transmit_ifgA (b : Byte) (s : State) : (transmit b s).ifgA = s.ifgA := rfl
@[simp] theorem transmit_ifgZ (b : Byte) (s : State) : (transmit b s).ifgZ = s.ifgZ := rfl
@[simp] theorem transmit_pinA (b : Byte) (s : State) : (transmit b s).pinA = s.pinA := rfl
@[simp] theorem transmit_pinB (b : Byte) (s : State) : (transmit b s).pinB = s.pinB := rfl
@[simp] theorem transmit_pinZ (b : Byte) (s : State) : (transmit b s).pinZ = s.pinZ := rfl
@[simp] theorem transmit_low (b : Byte) (s : State) : (transmit b s).low = s.low := rfl
@[simp] theorem transmit_high (b : Byte) (s : State) : (transmit b s).high = s.high := rfl
@[simp] theorem transmit_thr (b : Byte) (s : State) : (transmit b s).thr = s.thr := rfl
@[simp] theorem transmit_ifgOvf (b : Byte) (s : State) : (transmit b s).ifgOvf = s.ifgOvf := rfl
@[simp] theorem transmit_ifgCmp (b : Byte) (s : State) : (transmit b s).ifgCmp = s.ifgCmp := rfl
@[simp] theorem transmit_rxReg (b : Byte) (s : State) : (transmit b s).rxReg = s.rxReg := rfl
@[simp] theorem transmit_ifgRx (b : Byte) (s : State) : (transmit b s).ifgRx = s.ifgRx := rfl
@[simp] theorem transmit_mbByte (b : Byte) (s : State) : (transmit b s).mbByte = s.mbByte := rfl
@[simp] theorem transmit_mbCommand (b : Byte) (s : State) : (transmit b s).mbCommand = s.mbCommand := rfl
@[simp] theorem transmit_mbReady (b : Byte) (s : State) : (transmit b s).mbReady = s.mbReady := rfl
@[simp] theorem transmit_pstate (b : Byte) (s : State) : (transmit b s).pstate = s.pstate := rfl
@[simp] theorem transmit_pOp (b : Byte) (s : State) : (transmit b s).pOp = s.pOp := rfl
@[simp] theorem transmit_pPin (b : Byte) (s : State) : (transmit b s).pPin = s.pPin := rfl
@[simp] theorem transmit_buf (b : Byte) (s : State) : (transmit b s).buf = s.buf := rfl
@[simp] theorem transmit_gie (b : Byte) (s : State) : (transmit b s).gie = s.gie := rfl
@[simp] theorem transmit_wake (b : Byte) (s : State) : (transmit b s).wake = s.wake := rfl
@[simp] theorem transmit_genMode (b : Byte) (s : State) : (transmit b s).genMode = s.genMode := rfl
@[simp] theorem transmit_auxMode (b : Byte) (s : State) : (transmit b s).auxMode = s.auxMode := rfl
@[simp] theorem transmit_genOut (b : Byte) (s : State) : (transmit b s).genOut = s.genOut := rfl
@[simp] theorem transmit_auxOut (b : Byte) (s : State) : (transmit b s).auxOut = s.auxOut := rfl
@[simp] theorem transmit_doPort (b : Byte) (s : State) : (transmit b s).doPort = s.doPort := rfl
@[simp] theorem transmit_diGen (b : Byte) (s : State) : (transmit b s).diGen = s.diGen := rfl
@[simp] theorem transmit_diAux (b : Byte) (s : State) : (transmit b s).diAux = s.diAux := rfl
@[simp] theorem transmit_diPort (b : Byte) (s : State) : (transmit b s).diPort = s.diPort := rfl
@[simp] theorem transmit_schedule (b : Byte) (s : State) : (transmit b s).schedule = s.schedule := rfl
@[simp] theorem transmit_drawn (b : Byte) (s : State) : (transmit b s).drawn = s.drawn := rfl
@[simp] theorem transmit_hostFrame (b : Byte) (s : State) : (transmit b s).hostFrame = s.hostFrame := rfl
@[simp] theorem transmit_txOut (b : Byte) (s : State) : (transmit b s).txOut = s.txOut ++ [b] := rfl
@[simp] theorem transmit_txRdy (b : Byte) (s : State) : (transmit b s).txRdy = false := rfl
@[simp] theorem transmit_txIdx (b : Byte) (s : State) : (transmit b s).txIdx = s.txIdx + 1 := rfl
@[simp] theorem transmit_fg (b : Byte) (s : State) :
    (transmit b s).fg = if s.txIdx + 1 = s.cfg.frameLen then .sleep else s.fg := rfl

end Sys2Proof.Machine
end

