-- ==== Sys2Proof/Laws/Operations.lean ====
section
/-! SUPPORT. What each shared operation can do, said once: interrupts, foreground steps, the generation test, the buffer
read, pin writes, the parser, `apply`. -/

namespace Sys2Proof.Machine

/-- A handler's step happens exactly when it is enabled. -/
theorem takeInterrupt_next_iff {src : Source} {f : State → State} {s t : State} :
    takeInterrupt src f s = .next t ↔
      handlerEnabled src s = true ∧ t = returnFromHandler src (f (clearFlag src s)) := by
  unfold takeInterrupt
  split
  · rename_i h
    exact ⟨fun e => ⟨h, (Host.Outcome.next.inj e).symm⟩, fun e => by rw [e.2]⟩
  · rename_i h
    exact ⟨fun e => (by cases e), fun e => absurd e.1 h⟩

/-- A handler that is not enabled has no step. -/
theorem takeInterrupt_of_disabled {src : Source} {f : State → State} {s : State} (h : handlerEnabled src s = false) :
    takeInterrupt src f s = .refused .notEnabled := by simp [takeInterrupt, h]

theorem takeInterrupt_ne_fault {src : Source} {f : State → State} {s : State} {φ : Fault} :
    takeInterrupt src f s ≠ .fault φ := by
  unfold takeInterrupt; split <;> simp

theorem foregroundStep_next_iff {b : Bit} {o : Host.Outcome State Fault Refusal} {t : State} :
    foregroundStep b o = .next t ↔ b = true ∧ o = .next t := by
  unfold foregroundStep; split <;> simp_all

theorem inGeneration_next_iff {g : Gen} {s : State} {o : Host.Outcome State Fault Refusal} {t : State} :
    inGeneration g s o = .next t ↔ s.cfg.gen = g ∧ o = .next t := by
  unfold inGeneration; split <;> simp_all

theorem bufferByte_eq_byte_iff {s : State} {i : Nat} {b : Byte} :
    bufferByte s i = .byte b ↔ i < s.cfg.frameLen ∧ Memory.read s.buf i = some b := by
  unfold bufferByte
  split
  · split <;> simp_all
  · simp_all

/-- A pin byte names pin `k + 1` or none. -/
theorem pinIndex_of_fin (k : Fin 12) : pinIndex (BitVec.ofNat 8 (k + 1)) = some k := by
  revert k; decide

theorem pinIndex_eq_none {p : Byte} (h : p = 0 ∨ 13 ≤ p.toNat) : pinIndex p = none := by
  have : ¬(1 ≤ p.toNat ∧ p.toNat ≤ 12) := by
    rcases h with rfl | h
    · decide
    · omega
  simp [pinIndex, this]

theorem setPin_of_fin {α : Type} (f : Vector α 12) (k : Fin 12) (x : α) :
    setPin f (BitVec.ofNat 8 (k + 1)) x = f.set k x := by
  simp [setPin, pinIndex_of_fin]

theorem setPin_of_none {α : Type} (f : Vector α 12) {p : Byte} (x : α) (h : pinIndex p = none) :
    setPin f p x = f := by simp [setPin, h]

/-- The selector of a code, for an injective `OPSEL` (rule R101). -/
theorem select_code {c : Cfg} (h : c.wf = true) (sel : Selector) : c.opsel.select (c.opsel.code sel) = some sel := by
  simp only [Cfg.wf, OpSel.codes, Bool.and_eq_true, decide_eq_true_eq, List.nodup_cons, List.mem_cons,
    List.not_mem_nil, or_false, not_or] at h
  obtain ⟨⟨-, -⟩, ⟨h1, h2, h3, h4⟩, ⟨h5, h6, h7⟩, ⟨h8, h9⟩, h10, -⟩ := h
  cases sel <;> simp [OpSel.select, OpSel.code, eq_comm, *]

theorem select_eq_some {o : OpSel} {op : Byte} {sel : Selector} (h : o.select op = some sel) : op = o.code sel := by
  unfold OpSel.select at h
  repeat' split at h
  all_goals first
    | (cases h; simpa [OpSel.code] using by assumption)
    | cases h

theorem select_eq_none {o : OpSel} {op : Byte} (h : op ∉ o.codes) : o.select op = none := by
  simp only [OpSel.codes, List.mem_cons, List.not_mem_nil, or_false, not_or] at h
  obtain ⟨h1, h2, h3, h4, h5⟩ := h
  simp [OpSel.select, *]

/-- The meaning of a selector's command is the selector's effect. -/
theorem exec_command (sel : Selector) (p v : Byte) (s : State) (h : s.cfg.gen = .current) :
    exec (sel.command p v) s = .next (runSelector sel p v s) := by
  cases sel <;>
    simp [Selector.command, exec, execCfgd, execCfga, execWrd, execWrdm, execWra, inGeneration, h, runSelector]

/-- A command's effect writes the digital output registers and nothing else (rule R271). -/
theorem runSelector_frame (sel : Selector) (p v : Byte) (s : State) :
    ∃ gm am go ao, runSelector sel p v s =
      { s with genMode := gm, auxMode := am, genOut := go, auxOut := ao } := by
  cases sel
  · exact ⟨setPin s.genMode p v, s.auxMode, s.genOut, s.auxOut, rfl⟩
  · exact ⟨s.genMode, setPin s.auxMode p v, s.genOut, s.auxOut, rfl⟩
  · exact ⟨s.genMode, s.auxMode, setPin s.genOut p (lvl v), s.auxOut, rfl⟩
  · exact ⟨s.genMode, s.auxMode, setPin s.genOut p (lvl v), mirror s.cfg.mirror s.auxOut p (lvl v), rfl⟩
  · exact ⟨s.genMode, s.auxMode, s.genOut, setPin s.auxOut p (lvl v), rfl⟩

/-- `apply` writes the digital output registers and nothing else (rule R261). -/
theorem applyMailbox_frame (s : State) :
    ∃ gm am go ao dp, applyMailbox s =
      { s with genMode := gm, auxMode := am, genOut := go, auxOut := ao, doPort := dp } := by
  unfold applyMailbox
  split
  · exact ⟨_, _, _, _, _, rfl⟩
  · split
    · obtain ⟨gm, am, go, ao, h⟩ := runSelector_frame (by assumption) s.mbCommand.pin s.mbCommand.val s
      exact ⟨gm, am, go, ao, s.doPort, h⟩
    · exact ⟨s.genMode, s.auxMode, s.genOut, s.auxOut, s.doPort, rfl⟩

/-- Posting writes the mailbox and its ready flag and nothing else (rule R175). -/
theorem postCommand_frame (post : Option Command) (s : State) :
    ∃ mc rd, postCommand post s = { s with mbCommand := mc, mbReady := rd } ∧
      (∀ v, post = some v → mc = v ∧ rd = true) ∧ (post = none → mc = s.mbCommand ∧ rd = s.mbReady) := by
  cases post with
  | none => exact ⟨s.mbCommand, s.mbReady, rfl, fun v h => (by cases h), fun _ => ⟨rfl, rfl⟩⟩
  | some v => exact ⟨v, true, rfl, fun w h => ⟨Option.some.inj h, rfl⟩, fun h => by cases h⟩

/-- The body of `ISR_RX` writes the mailbox and the parser's registers and nothing else (rule R175). -/
theorem receiveByte_frame (s : State) :
    ∃ mb mc rd ps op pp, receiveByte s =
        { s with mbByte := mb, mbCommand := mc, mbReady := rd, pstate := ps, pOp := op, pPin := pp } ∧
      (s.mbReady = true → rd = true) ∧ (s.cfg.gen = .legacy → ps = s.pstate ∧ op = s.pOp ∧ pp = s.pPin) := by
  unfold receiveByte
  cases h : s.cfg.gen
  · cases hp : s.pstate
    · exact ⟨s.mbByte, s.mbCommand, s.mbReady, _, s.pOp, s.pPin, rfl, id, by simp⟩
    · exact ⟨s.mbByte, s.mbCommand, s.mbReady, _, _, s.pPin, rfl, id, by simp⟩
    · exact ⟨s.mbByte, s.mbCommand, s.mbReady, _, s.pOp, _, rfl, id, by simp⟩
    · exact ⟨s.mbByte, _, true, _, s.pOp, s.pPin, rfl, fun _ => rfl, by simp⟩
  · exact ⟨_, s.mbCommand, true, s.pstate, s.pOp, s.pPin, rfl, fun _ => rfl, by simp⟩

/-- The body of `ISR_A` writes the counters and `arm` and nothing else; the counters move together (rules R135 to
R139). -/
theorem decodeEdge_frame (s : State) :
    ∃ wt ut arm, decodeEdge s = { s with wt := wt, ut := ut, arm := arm } ∧
      ((ut = s.ut ∧ wt = s.wt) ∨ (ut = s.ut + 1 ∧ wt = s.wt + 1) ∨ (ut = s.ut - 1 ∧ wt = s.wt - 1)) := by
  unfold decodeEdge
  rcases edgeCount s.arm s.pinA s.pinB with - | - | -
  · exact ⟨_, _, _, rfl, .inl ⟨rfl, rfl⟩⟩
  · exact ⟨_, _, _, rfl, .inr (.inr ⟨rfl, rfl⟩)⟩
  · exact ⟨_, _, _, rfl, .inr (.inl ⟨rfl, rfl⟩)⟩

/-- An edge that counts moves both counters and arms the other polarity (rules R136 to R138). -/
theorem decodeEdge_of_count {s : State} {up : Bit} (h : edgeCount s.arm s.pinA s.pinB = some up) :
    decodeEdge s = { countTicks up s with arm := s.arm.flip } := by
  unfold decodeEdge; rw [h]

/-- A glitch counts nothing (rule R139). -/
theorem decodeEdge_of_glitch {s : State} (h : edgeCount s.arm s.pinA s.pinB = none) :
    decodeEdge s = { s with arm := glitchArm s.cfg.glitch s.arm } := by
  unfold decodeEdge; rw [h]

theorem receiveByte_of_legacy {s : State} (h : s.cfg.gen = .legacy) :
    receiveByte s = { s with mbByte := s.rxReg, mbReady := true } := by
  unfold receiveByte; rw [h]

theorem receiveByte_of_current {s : State} (h : s.cfg.gen = .current) :
    receiveByte s =
      postCommand (cmdParse s.pstate s.pOp s.pPin s.rxReg).post
        { s with
          pstate := (cmdParse s.pstate s.pOp s.pPin s.rxReg).pstate
          pOp := (cmdParse s.pstate s.pOp s.pPin s.rxReg).pOp
          pPin := (cmdParse s.pstate s.pOp s.pPin s.rxReg).pPin } := by
  unfold receiveByte; rw [h]

/-- A legacy mailbox is applied as the output port (rules R261 and R267). -/
theorem applyMailbox_of_legacy {s : State} (h : s.cfg.gen = .legacy) :
    applyMailbox s = { s with doPort := s.mbByte } := by
  unfold applyMailbox; rw [h]; rfl

/-- A structured command whose code is a selector's is that selector's effect (rule R261). -/
theorem applyMailbox_of_select {s : State} {sel : Selector} (h : s.cfg.gen = .current)
    (hs : s.cfg.opsel.select s.mbCommand.op = some sel) :
    applyMailbox s = runSelector sel s.mbCommand.pin s.mbCommand.val s := by
  unfold applyMailbox; rw [h]; simp only [hs]

/-- An operation byte that no selector has does nothing (rule R269). -/
theorem applyMailbox_of_unknown {s : State} (h : s.cfg.gen = .current)
    (hs : s.cfg.opsel.select s.mbCommand.op = none) : applyMailbox s = s := by
  unfold applyMailbox; rw [h]; simp only [hs]

/-! ## The choice and the step -/

theorem scheduled_cons {s : State} {i : Instr} {is : List Instr} (h : s.schedule = i :: is) : scheduled s = i := by
  simp [scheduled, h]

theorem afterChoice_cons {s : State} {i : Instr} {is : List Instr} (h : s.schedule = i :: is) :
    afterChoice s = { s with schedule := is } := by
  simp [afterChoice, h]

/-- The enabling conditions read no field that the choice moves. -/
@[simp] theorem canStep_afterChoice (i : Instr) (s : State) : canStep i (afterChoice s) = canStep i s := by
  cases i <;> rfl

/-- What one step can do: the chosen operation runs, or its agent waits. -/
theorem step_cases {s t : State} (h : step s = .next t) :
    (canStep (scheduled s) s = true ∧ exec (scheduled s) (afterChoice s) = .next t) ∨
    (canStep (scheduled s) s = false ∧ t = afterChoice s) := by
  unfold step at h
  rw [canStep_afterChoice] at h
  split at h
  · rename_i hc; exact .inl ⟨hc, h⟩
  · rename_i hc; cases h; exact .inr ⟨by simpa using hc, rfl⟩

/-- A scheduled operation that has a step runs. -/
theorem step_of_enabled {s : State} {i : Instr} {is : List Instr} (hs : s.schedule = i :: is)
    (h : canStep i s = true) : step s = exec i { s with schedule := is } := by
  rw [step, canStep_afterChoice, scheduled_cons hs, if_pos h, afterChoice_cons hs]

/-- The operation a step takes has an agent. -/
theorem agent_of_canStep {i : Instr} {s : State} (h : canStep i s = true) : i.agent ≠ none := by
  cases i <;> simp [canStep, Instr.agent] at h ⊢

theorem runSteps_succ {n : Nat} {s t : State} (h : step s = .next t) : runSteps (n + 1) s = runSteps n t := by
  simp [runSteps, h]

end Sys2Proof.Machine
end

