-- ==== Sys2Proof/Laws/Meanings.lean ====
section
/-! SUPPORT. One lemma per operation: if its meaning answers a next state, then its enabling condition held and the next
state is this one. -/

namespace Sys2Proof.Machine

theorem execTick_next {s t : State} (h : execTick s = .next t) :
    t = { s with
      ifgOvf := s.ifgOvf || s.low + 1 == 0, ifgCmp := s.ifgCmp || s.low + 1 == s.thr, low := s.low + 1 } :=
  (Host.Outcome.next.inj h).symm

theorem execPin_next {a b z : Bit} {s t : State} (h : execPin a b z s = .next t) :
    t = { s with
      ifgA := s.ifgA || isEdge s.arm s.pinA a, ifgZ := s.ifgZ || isEdge s.cfg.zPol s.pinZ z
      pinA := a, pinB := b, pinZ := z } :=
  (Host.Outcome.next.inj h).symm

theorem execRxb_next {b : Byte} {s t : State} (h : execRxb b s = .next t) : t = { s with rxReg := b, ifgRx := true } :=
  (Host.Outcome.next.inj h).symm

theorem execTxrdy_next {s t : State} (h : execTxrdy s = .next t) : t = { s with txRdy := true } :=
  (Host.Outcome.next.inj h).symm

theorem execDin_next {d : DigitalIn} {s t : State} (h : execDin d s = .next t) :
    d.fits s.cfg.gen = true ∧ ∃ g a p, t = { s with diGen := g, diAux := a, diPort := p } := by
  cases d with
  | current g a =>
    obtain ⟨hg, ht⟩ := inGeneration_next_iff.1 h
    exact ⟨by rw [hg]; rfl, g, a, s.diPort, (Host.Outcome.next.inj ht).symm⟩
  | legacy p =>
    obtain ⟨hg, ht⟩ := inGeneration_next_iff.1 h
    exact ⟨by rw [hg]; rfl, s.diGen, s.diAux, p, (Host.Outcome.next.inj ht).symm⟩

/-- The counters move together or not at all (rules R25 and R135). -/
theorem execIsrA_next {s t : State} (h : execIsrA s = .next t) :
    handlerEnabled .a s = true ∧ ∃ wt ut arm,
      ((ut = s.ut ∧ wt = s.wt) ∨ (ut = s.ut + 1 ∧ wt = s.wt + 1) ∨ (ut = s.ut - 1 ∧ wt = s.wt - 1)) ∧
      t = { s with wt := wt, ut := ut, arm := arm, ifgA := false, wake := s.wake || s.cfg.wakeSet.a } := by
  obtain ⟨hen, rfl⟩ := takeInterrupt_next_iff.1 h
  obtain ⟨wt, ut, arm, he, hc⟩ := decodeEdge_frame (clearFlag .a s)
  exact ⟨hen, wt, ut, arm, hc, by rw [he]; rfl⟩

theorem execIsrZ_next {s t : State} (h : execIsrZ s = .next t) :
    handlerEnabled .z s = true ∧ t = { s with wt := 0, ifgZ := false, wake := s.wake || s.cfg.wakeSet.z } :=
  takeInterrupt_next_iff.1 h

theorem execIsrOvf_next {s t : State} (h : execIsrOvf s = .next t) :
    handlerEnabled .ovf s = true ∧
      t = { s with high := s.high + 1, ifgOvf := false, wake := s.wake || s.cfg.wakeSet.ovf } :=
  takeInterrupt_next_iff.1 h

theorem execIsrCmp_next {s t : State} (h : execIsrCmp s = .next t) :
    handlerEnabled .cmp s = true ∧
      t = { s with thr := s.thr + s.cfg.cmpStep, ifgCmp := false, wake := s.wake || s.cfg.wakeSet.cmp } :=
  takeInterrupt_next_iff.1 h

/-- `ISR_RX` never clears `mb_ready`, and in a `LEGACY` block touches no parser register (rules R175 and R224). -/
theorem execIsrRx_next {s t : State} (h : execIsrRx s = .next t) :
    handlerEnabled .rx s = true ∧ ∃ mb mc rd ps op pp,
      (s.mbReady = true → rd = true) ∧ (s.cfg.gen = .legacy → ps = s.pstate ∧ op = s.pOp ∧ pp = s.pPin) ∧
      t = { s with
        mbByte := mb, mbCommand := mc, mbReady := rd, pstate := ps, pOp := op, pPin := pp, ifgRx := false
        wake := s.wake || s.cfg.wakeSet.rx } := by
  obtain ⟨hen, rfl⟩ := takeInterrupt_next_iff.1 h
  obtain ⟨mb, mc, rd, ps, op, pp, he, h1, h2⟩ := receiveByte_frame (clearFlag .rx s)
  exact ⟨hen, mb, mc, rd, ps, op, pp, h1, h2, by rw [he]; rfl⟩

theorem atPhase_iff {p : Phase} {s : State} : atPhase p s = true ↔ s.fg = p := by simp [atPhase]

theorem execBoot_next {s t : State} (h : execBoot s = .next t) :
    s.fg = .boot ∧ t = { s with
      ifgA := false, ifgZ := false, ifgOvf := false, ifgCmp := false, ifgRx := false, gie := true, fg := .sleep } := by
  obtain ⟨h1, h2⟩ := foregroundStep_next_iff.1 h
  exact ⟨atPhase_iff.1 h1, (Host.Outcome.next.inj h2).symm⟩

theorem execSleep_next {s t : State} (h : execSleep s = .next t) :
    s.fg = .sleep ∧ s.wake = true ∧ t = { s with wake := false, fg := .take } := by
  obtain ⟨h1, h2⟩ := foregroundStep_next_iff.1 h
  obtain ⟨h3, h4⟩ := Bool.and_eq_true_iff.1 h1
  exact ⟨atPhase_iff.1 h3, h4, (Host.Outcome.next.inj h2).symm⟩

theorem execMbTake_next {s t : State} (h : execMbTake s = .next t) :
    s.fg = .take ∧ ((s.mbReady = false ∧ t = { s with fg := .dint }) ∨
      (s.mbReady = true ∧ t = { applyMailbox s with fg := .clear })) := by
  obtain ⟨h1, h2⟩ := foregroundStep_next_iff.1 h
  refine ⟨atPhase_iff.1 h1, ?_⟩
  cases hr : s.mbReady <;> rw [hr] at h2
  · exact .inl ⟨rfl, (Host.Outcome.next.inj h2).symm⟩
  · exact .inr ⟨rfl, (Host.Outcome.next.inj h2).symm⟩

/-- `MB_TAKE` writes the digital output registers, if a command was ready, and the phase (rule R178). -/
theorem execMbTake_frame {s t : State} (h : execMbTake s = .next t) :
    s.fg = .take ∧ ∃ gm am go ao dp,
      (s.mbReady = false → gm = s.genMode ∧ am = s.auxMode ∧ go = s.genOut ∧ ao = s.auxOut ∧ dp = s.doPort) ∧
      t = { s with
        genMode := gm, auxMode := am, genOut := go, auxOut := ao, doPort := dp
        fg := if s.mbReady then .clear else .dint } := by
  obtain ⟨hfg, ⟨hr, rfl⟩ | ⟨hr, rfl⟩⟩ := execMbTake_next h
  · exact ⟨hfg, _, _, _, _, _, fun _ => ⟨rfl, rfl, rfl, rfl, rfl⟩, by rw [hr]; rfl⟩
  · obtain ⟨gm, am, go, ao, dp, he⟩ := applyMailbox_frame s
    refine ⟨hfg, gm, am, go, ao, dp, fun hf => ?_, by rw [he, hr]; rfl⟩
    rw [hr] at hf; cases hf

theorem execMbClear_next {s t : State} (h : execMbClear s = .next t) :
    s.fg = .clear ∧ t = { s with mbReady := false, fg := .dint } := by
  obtain ⟨h1, h2⟩ := foregroundStep_next_iff.1 h
  exact ⟨atPhase_iff.1 h1, (Host.Outcome.next.inj h2).symm⟩

theorem execDint_next {s t : State} (h : execDint s = .next t) :
    s.fg = .dint ∧ t = { s with gie := false, fg := .snap } := by
  obtain ⟨h1, h2⟩ := foregroundStep_next_iff.1 h
  exact ⟨atPhase_iff.1 h1, (Host.Outcome.next.inj h2).symm⟩

theorem execSnap_next {s t : State} (h : execSnap s = .next t) :
    s.cfg.gen = .current ∧ s.fg = .snap ∧ t = { s with
      buf := layFrame17 s.cfg.endian (clockField s) (wtField s) (utField s) s.diGen s.diAux s.buf, fg := .eint } := by
  obtain ⟨h0, h⟩ := inGeneration_next_iff.1 h
  obtain ⟨h1, h2⟩ := foregroundStep_next_iff.1 h
  exact ⟨h0, atPhase_iff.1 h1, (Host.Outcome.next.inj h2).symm⟩

theorem execSnapLegacy_next {s t : State} (h : execSnapLegacy s = .next t) :
    s.cfg.gen = .legacy ∧ s.fg = .snap ∧ t = { s with
      buf := layFrame14 s.cfg.endian (lowField s) (highField s) (wtField s) (utField s) s.diPort s.buf
      fg := .eint } := by
  obtain ⟨h0, h⟩ := inGeneration_next_iff.1 h
  obtain ⟨h1, h2⟩ := foregroundStep_next_iff.1 h
  exact ⟨h0, atPhase_iff.1 h1, (Host.Outcome.next.inj h2).symm⟩

theorem execEint_next {s t : State} (h : execEint s = .next t) :
    s.fg = .eint ∧ t = { s with gie := true, txIdx := 0, fg := .tx } := by
  obtain ⟨h1, h2⟩ := foregroundStep_next_iff.1 h
  exact ⟨atPhase_iff.1 h1, (Host.Outcome.next.inj h2).symm⟩

theorem execTxb_next {s t : State} (h : execTxb s = .next t) :
    s.fg = .tx ∧ s.txRdy = true ∧ s.txIdx < s.cfg.frameLen ∧
      ∃ b, Memory.read s.buf s.txIdx = some b ∧ t = transmit b s := by
  obtain ⟨h1, h2⟩ := foregroundStep_next_iff.1 h
  obtain ⟨h3, h4⟩ := Bool.and_eq_true_iff.1 h1
  refine ⟨atPhase_iff.1 h3, h4, ?_⟩
  split at h2
  · rename_i b hb
    obtain ⟨h5, h6⟩ := bufferByte_eq_byte_iff.1 hb
    exact ⟨h5, b, h6, (Host.Outcome.next.inj h2).symm⟩
  · cases h2

theorem execCfgd_next {p m : Byte} {s t : State} (h : execCfgd p m s = .next t) :
    s.cfg.gen = .current ∧ t = { s with genMode := setPin s.genMode p m } := by
  obtain ⟨h0, h⟩ := inGeneration_next_iff.1 h
  exact ⟨h0, (Host.Outcome.next.inj h).symm⟩

theorem execCfga_next {p m : Byte} {s t : State} (h : execCfga p m s = .next t) :
    s.cfg.gen = .current ∧ t = { s with auxMode := setPin s.auxMode p m } := by
  obtain ⟨h0, h⟩ := inGeneration_next_iff.1 h
  exact ⟨h0, (Host.Outcome.next.inj h).symm⟩

theorem execWrd_next {p v : Byte} {s t : State} (h : execWrd p v s = .next t) :
    s.cfg.gen = .current ∧ t = { s with genOut := setPin s.genOut p (lvl v) } := by
  obtain ⟨h0, h⟩ := inGeneration_next_iff.1 h
  exact ⟨h0, (Host.Outcome.next.inj h).symm⟩

theorem execWrdm_next {p v : Byte} {s t : State} (h : execWrdm p v s = .next t) :
    s.cfg.gen = .current ∧ t = { s with
      genOut := setPin s.genOut p (lvl v), auxOut := mirror s.cfg.mirror s.auxOut p (lvl v) } := by
  obtain ⟨h0, h⟩ := inGeneration_next_iff.1 h
  exact ⟨h0, (Host.Outcome.next.inj h).symm⟩

theorem execWra_next {p v : Byte} {s t : State} (h : execWra p v s = .next t) :
    s.cfg.gen = .current ∧ t = { s with auxOut := setPin s.auxOut p (lvl v) } := by
  obtain ⟨h0, h⟩ := inGeneration_next_iff.1 h
  exact ⟨h0, (Host.Outcome.next.inj h).symm⟩

theorem execWrport_next {b : Byte} {s t : State} (h : execWrport b s = .next t) :
    s.cfg.gen = .legacy ∧ t = { s with doPort := b } := by
  obtain ⟨h0, h⟩ := inGeneration_next_iff.1 h
  exact ⟨h0, (Host.Outcome.next.inj h).symm⟩

theorem execFrame17_next {low high wt : Word16} {ut : Word32} {gen aux : Word16} {s t : State}
    (h : execFrame17 low high wt ut gen aux s = .next t) :
    s.cfg.gen = .current ∧ t = { s with buf := layFrame17 s.cfg.endian (high ++ low) wt ut gen aux s.buf } := by
  obtain ⟨h0, h⟩ := inGeneration_next_iff.1 h
  exact ⟨h0, (Host.Outcome.next.inj h).symm⟩

theorem execFrame14_next {low high wt : Word16} {ut : Word32} {port : Byte} {s t : State}
    (h : execFrame14 low high wt ut port s = .next t) :
    s.cfg.gen = .legacy ∧ t = { s with buf := layFrame14 s.cfg.endian low high wt ut port s.buf } := by
  obtain ⟨h0, h⟩ := inGeneration_next_iff.1 h
  exact ⟨h0, (Host.Outcome.next.inj h).symm⟩

theorem execFrameDecode_next {f : List Byte} {s t : State} (h : execFrameDecode f s = .next t) :
    t = { s with hostFrame := frameDecode s.cfg f } :=
  (Host.Outcome.next.inj h).symm

/-! ## The parameters

Rule R45: the parameters are not state. The registers of two states of one run therefore have the same widths. -/

/-- No operation changes a parameter (rules R8 and R45). -/
theorem exec_cfg {i : Instr} {s t : State} (h : exec i s = .next t) : t.cfg = s.cfg := by
  cases i
  case tick => rw [execTick_next h]
  case pin => rw [execPin_next h]
  case rxb => rw [execRxb_next h]
  case txrdy => rw [execTxrdy_next h]
  case din => obtain ⟨-, _, _, _, rfl⟩ := execDin_next h; rfl
  case isrA => obtain ⟨-, _, _, _, -, rfl⟩ := execIsrA_next h; rfl
  case isrZ => rw [(execIsrZ_next h).2]
  case isrOvf => rw [(execIsrOvf_next h).2]
  case isrCmp => rw [(execIsrCmp_next h).2]
  case isrRx => obtain ⟨-, _, _, _, _, _, _, -, -, rfl⟩ := execIsrRx_next h; rfl
  case boot => rw [(execBoot_next h).2]
  case sleep => rw [(execSleep_next h).2.2]
  case mbTake => obtain ⟨-, _, _, _, _, _, -, rfl⟩ := execMbTake_frame h; rfl
  case mbClear => rw [(execMbClear_next h).2]
  case dint => rw [(execDint_next h).2]
  case snap => rw [(execSnap_next h).2.2]
  case snapLegacy => rw [(execSnapLegacy_next h).2.2]
  case eint => rw [(execEint_next h).2]
  case txb => obtain ⟨-, -, -, _, -, rfl⟩ := execTxb_next h; rfl
  case cfgd => rw [(execCfgd_next h).2]
  case cfga => rw [(execCfga_next h).2]
  case wrd => rw [(execWrd_next h).2]
  case wrdm => rw [(execWrdm_next h).2]
  case wra => rw [(execWra_next h).2]
  case wrport => rw [(execWrport_next h).2]
  case frame17 => rw [(execFrame17_next h).2]
  case frame14 => rw [(execFrame14_next h).2]
  case frameDecode => rw [execFrameDecode_next h]

/-- No step changes a parameter. -/
theorem step_cfg {s t : State} (h : step s = .next t) : t.cfg = s.cfg := by
  rcases step_cases h with ⟨-, he⟩ | ⟨-, rfl⟩
  · exact (exec_cfg he).trans (afterChoice_cfg s)
  · rfl

/-- No run changes a parameter. -/
theorem runSteps_cfg {n : Nat} {s t : State} (h : runSteps n s = .next t) : t.cfg = s.cfg := by
  induction n generalizing s with
  | zero => cases h; rfl
  | succ n ih =>
    unfold runSteps at h
    split at h
    · rename_i u hu; rw [ih h, step_cfg hu]
    · cases h
    · cases h

end Sys2Proof.Machine
end

