-- ==== Sys2Proof/Laws/Memory.lean ====
section
/-! SUPPORT. The frame buffer: reading after writing, and the canonical form that every memory operation keeps. -/

namespace Sys2Proof.Machine

theorem Memory.read_write (m : Memory) (a : Nat) (v : Byte) (x : Nat) :
    Memory.read (Memory.write m a v) x = if a = x then some v else Memory.read m x := by
  induction m with
  | nil => simp [Memory.write, Memory.read]
  | cons c m ih =>
    obtain ⟨y, b⟩ := c
    simp only [Memory.write]
    split
    · simp [Memory.read]
    · split
      · subst_vars; simp only [Memory.read]; split <;> simp_all
      · simp only [Memory.read, ih]; split <;> split <;> simp_all

@[simp] theorem Memory.read_write_same (m : Memory) (a : Nat) (v : Byte) :
    Memory.read (Memory.write m a v) a = some v := by simp [Memory.read_write]

theorem Memory.mem_write {m : Memory} {a : Nat} {v : Byte} {c : Host.Cell} (h : c ∈ Memory.write m a v) :
    c = (a, v) ∨ c ∈ m := by
  induction m with
  | nil => simpa [Memory.write] using h
  | cons d m ih =>
    obtain ⟨y, b⟩ := d
    simp only [Memory.write] at h
    split at h
    · simpa using h
    · split at h <;> simp only [List.mem_cons] at h ⊢ <;> rcases h with h | h
      · exact .inl h
      · exact .inr (.inr h)
      · exact .inr (.inl h)
      · rcases ih h with h | h
        · exact .inl h
        · exact .inr (.inr h)

/-- A write keeps the canonical form. -/
theorem Memory.wf_write {m : Memory} (h : Memory.wf m) (a : Nat) (v : Byte) : Memory.wf (Memory.write m a v) := by
  induction m with
  | nil => simp [Memory.wf, Memory.write]
  | cons c m ih =>
    obtain ⟨y, b⟩ := c
    simp only [Memory.wf, List.map_cons, List.pairwise_cons] at h
    simp only [Memory.write]
    split
    · simp only [Memory.wf, List.map_cons, List.pairwise_cons, List.mem_cons, forall_eq_or_imp]
      exact ⟨⟨by assumption, fun x hx => lt_trans (by assumption) (h.1 x hx)⟩, h⟩
    · split
      · subst_vars; simpa only [Memory.wf, List.map_cons, List.pairwise_cons] using h
      · simp only [Memory.wf, List.map_cons, List.pairwise_cons]
        refine ⟨?_, ih h.2⟩
        intro x hx
        obtain ⟨c, hc, rfl⟩ := List.mem_map.1 hx
        rcases Memory.mem_write hc with rfl | hc
        · show y < a; omega
        · exact h.1 _ (List.mem_map_of_mem hc)

theorem Memory.wf_writeBytes {m : Memory} (h : Memory.wf m) (a : Nat) (bs : List Byte) :
    Memory.wf (Memory.writeBytes m a bs) := by
  induction bs generalizing m a with
  | nil => exact h
  | cons b bs ih => exact ih (Memory.wf_write h a b) (a + 1)

/-- `MemWrite` keeps the canonical form. -/
theorem Memory.wf_writeField {m : Memory} (h : Memory.wf m) (e : Endian) (a n : Nat) {w : Nat} (v : BitVec w) :
    Memory.wf (Memory.writeField e m a n v) := Memory.wf_writeBytes h a _

theorem Memory.mem_writeBytes {m : Memory} {a : Nat} {bs : List Byte} {c : Host.Cell}
    (h : c ∈ Memory.writeBytes m a bs) : (a ≤ c.1 ∧ c.1 < a + bs.length) ∨ c ∈ m := by
  induction bs generalizing m a with
  | nil => exact .inr h
  | cons b bs ih =>
    rcases ih h with ⟨h1, h2⟩ | h
    · left; simp only [List.length_cons]; omega
    · rcases Memory.mem_write h with rfl | h
      · left; simp
      · exact .inr h

/-- `MemWrite` lists no address outside its field that was not listed before. -/
theorem Memory.mem_writeField {e : Endian} {m : Memory} {a n w : Nat} {v : BitVec w} {c : Host.Cell}
    (h : c ∈ Memory.writeField e m a n v) : (a ≤ c.1 ∧ c.1 < a + n) ∨ c ∈ m := by
  simpa using Memory.mem_writeBytes h

theorem Memory.read_writeBytes (m : Memory) (a : Nat) (bs : List Byte) (x : Nat) :
    Memory.read (Memory.writeBytes m a bs) x = if a ≤ x ∧ x < a + bs.length then bs[x - a]? else Memory.read m x := by
  induction bs generalizing m a with
  | nil => simp [Memory.writeBytes, show ¬(a ≤ x ∧ x < a) by omega]
  | cons b bs ih =>
    rw [Memory.writeBytes, ih, Memory.read_write]
    by_cases hx : a = x
    · subst hx; simp
    · by_cases hi : a + 1 ≤ x ∧ x < a + 1 + bs.length
      · have h2 : a ≤ x ∧ x < a + (b :: bs).length := by simp only [List.length_cons]; omega
        rw [if_pos hi, if_pos h2, show x - a = (x - (a + 1)) + 1 by omega, List.getElem?_cons_succ]
      · have h2 : ¬(a ≤ x ∧ x < a + (b :: bs).length) := by simp only [List.length_cons]; omega
        rw [if_neg hi, if_neg hx, if_neg h2]

/-- What a read gives after `MemWrite`: the field's byte inside the field, the old byte outside it. -/
theorem Memory.read_writeField (e : Endian) (m : Memory) (a n : Nat) {w : Nat} (v : BitVec w) (x : Nat) :
    Memory.read (Memory.writeField e m a n v) x =
      if a ≤ x ∧ x < a + n then (fieldBytes e n v)[x - a]? else Memory.read m x := by
  simp [Memory.writeField, Memory.read_writeBytes]

/-- Reading bytes is reading each of them. -/
theorem Memory.readBytes_eq_some {m : Memory} {a n : Nat} {bs : List Byte} :
    Memory.readBytes m a n = some bs ↔ bs.length = n ∧ ∀ k, k < n → Memory.read m (a + k) = bs[k]? := by
  induction n generalizing a bs with
  | zero => cases bs <;> simp [Memory.readBytes]
  | succ n ih =>
    constructor
    · intro h
      simp only [Memory.readBytes] at h
      split at h
      · rename_i b bs' hb hbs
        cases h
        obtain ⟨hl, hr⟩ := ih.1 hbs
        refine ⟨by simp [hl], fun k hk => ?_⟩
        cases k with
        | zero => simpa using hb
        | succ k => rw [show a + (k + 1) = a + 1 + k by omega]; simpa using hr k (by omega)
      · cases h
    · rintro ⟨hl, hr⟩
      cases bs with
      | nil => simp at hl
      | cons b bs =>
        have h0 : Memory.read m a = some b := by simpa using hr 0 (by omega)
        have h1 : Memory.readBytes m (a + 1) n = some bs := ih.2 ⟨by simpa using hl, fun k hk => by
          have := hr (k + 1) (by omega)
          rw [show a + 1 + k = a + (k + 1) by omega]; simpa using this⟩
        simp [Memory.readBytes, h0, h1]

/-- What a read of the buffer gives after a `CURRENT` frame is laid into it (rule R110). -/
theorem read_layFrame17 (e : Endian) (clk : Word32) (wt : Word16) (ut : Word32) (gen aux : Word16) (m : Memory)
    (x : Nat) :
    Memory.read (layFrame17 e clk wt ut gen aux m) x =
      if x < 17 then (frame17Bytes e clk wt ut gen aux)[x]? else Memory.read m x := by
  simp only [layFrame17, Memory.read_writeField]
  by_cases h : x < 17
  · rw [if_pos h]
    interval_cases x <;>
      simp [frame17Bytes, List.getElem?_append, fieldBytes, List.range_succ, byteOf] <;> cases e <;> simp
  · simp [h, show ¬(x < 1) by omega, show ¬(x < 2) by omega, show ¬(x < 6) by omega, show ¬(x < 8) by omega,
      show ¬(x < 12) by omega, show ¬(x < 14) by omega, show ¬(x < 16) by omega]

/-- What a read of the buffer gives after a `LEGACY` frame is laid into it (rule R111). -/
theorem read_layFrame14 (e : Endian) (low high wt : Word16) (ut : Word32) (port : Byte) (m : Memory) (x : Nat) :
    Memory.read (layFrame14 e low high wt ut port m) x =
      if x < 14 then (frame14Bytes e low high wt ut port)[x]? else Memory.read m x := by
  simp only [layFrame14, Memory.read_writeField]
  by_cases h : x < 14
  · rw [if_pos h]
    interval_cases x <;>
      simp [frame14Bytes, List.getElem?_append, fieldBytes, List.range_succ, byteOf] <;> cases e <;> simp
  · simp [h, show ¬(x < 1) by omega, show ¬(x < 2) by omega, show ¬(x < 4) by omega, show ¬(x < 6) by omega,
      show ¬(x < 8) by omega, show ¬(x < 12) by omega, show ¬(x < 13) by omega]

end Sys2Proof.Machine
end

