-- ==== Sys2Proof/Laws/PerInstr.lean ====
section
/-! SUPPORT. Statements about every operation as syntax, one lemma per constructor of `Instr`. -/

namespace Sys2Proof.Laws.EncodingLength

/-- The encoding has as many bytes as its format (rule R118). -/
def Statement (i : Instr) : Prop := ∀ c : Cfg, (encode c i).length = i.format.length

theorem tick : Statement .tick := fun _ => rfl
theorem pin (a b z : Bit) : Statement (.pin a b z) := fun _ => rfl
theorem rxb (byte : Byte) : Statement (.rxb byte) := fun _ => rfl
theorem txrdy : Statement .txrdy := fun _ => rfl
theorem din (levels : DigitalIn) : Statement (.din levels) := fun _ => rfl
theorem isrA : Statement .isrA := fun _ => rfl
theorem isrZ : Statement .isrZ := fun _ => rfl
theorem isrOvf : Statement .isrOvf := fun _ => rfl
theorem isrCmp : Statement .isrCmp := fun _ => rfl
theorem isrRx : Statement .isrRx := fun _ => rfl
theorem boot : Statement .boot := fun _ => rfl
theorem sleep : Statement .sleep := fun _ => rfl
theorem mbTake : Statement .mbTake := fun _ => rfl
theorem mbClear : Statement .mbClear := fun _ => rfl
theorem dint : Statement .dint := fun _ => rfl
theorem snap : Statement .snap := fun _ => rfl
theorem snapLegacy : Statement .snapLegacy := fun _ => rfl
theorem eint : Statement .eint := fun _ => rfl
theorem txb : Statement .txb := fun _ => rfl
theorem cfgd (pin mode : Byte) : Statement (.cfgd pin mode) := fun _ => rfl
theorem cfga (pin mode : Byte) : Statement (.cfga pin mode) := fun _ => rfl
theorem wrd (pin val : Byte) : Statement (.wrd pin val) := fun _ => rfl
theorem wrdm (pin val : Byte) : Statement (.wrdm pin val) := fun _ => rfl
theorem wra (pin val : Byte) : Statement (.wra pin val) := fun _ => rfl
theorem wrport (b : Byte) : Statement (.wrport b) := fun _ => rfl
theorem frame17 (low high wt : Word16) (ut : Word32) (gen aux : Word16) : Statement (.frame17 low high wt ut gen aux) := fun _ => frame17Bytes_length _ _ _ _ _ _
theorem frame14 (low high wt : Word16) (ut : Word32) (port : Byte) : Statement (.frame14 low high wt ut port) := fun _ => frame14Bytes_length _ _ _ _ _ _
theorem frameDecode (f : List Byte) : Statement (.frameDecode f) := fun _ => rfl

end Sys2Proof.Laws.EncodingLength
end

