-- ==== Sys2Proof/Laws/Widths.lean ====
section
/-! SUPPORT. The registers whose width is a parameter of rule R8: what a legal build's widths are, the counter's wrap
and the logical clock as numbers, and what the frame's fields carry. -/

namespace Sys2Proof.Machine

/-- The widths of a legal build (rule R8, decisions D2 and D3). -/
theorem widths_of_wf {c : Cfg} (h : c.wf = true) :
    0 < c.wtW ∧ c.wtW < c.utW ∧ 0 < c.cntW ∧ 0 < c.extW ∧ c.cntW + c.extW = 32 ∧ (c.gen = .legacy → c.cntW = 16) := by
  simp only [Cfg.wf, Cfg.widthsLegal, Bool.and_eq_true, decide_eq_true_eq] at h
  exact h.1.1

/-- `CMP_STEP` is 1 .. 2^CNT_W - 1 in a legal build (rule R8). -/
theorem cmpStep_of_wf {c : Cfg} (h : c.wf = true) : 0 < c.cmpStep.toNat ∧ c.cmpStep.toNat < c.counterRange := by
  simp only [Cfg.wf, Bool.and_eq_true, bne_iff_ne, ne_eq] at h
  refine ⟨Nat.pos_of_ne_zero fun h0 => h.1.2 (BitVec.eq_of_toNat_eq ?_), c.cmpStep.isLt⟩
  simpa using h0

/-- A counter wraps exactly from its maximum value (rule R152). -/
theorem add_one_eq_zero_iff {w : Nat} (x : BitVec w) : x + 1 = 0 ↔ x = BitVec.allOnes w := by
  rw [← BitVec.neg_one_eq_allOnes, ← BitVec.zero_sub]
  exact BitVec.eq_sub_iff_add_eq.symm

theorem atMaximum_iff (s : State) : atMaximum s = true ↔ s.low.toNat + 1 = s.cfg.counterRange := by
  have := Nat.two_pow_pos s.cfg.cntW
  simp only [atMaximum, beq_iff_eq, ← BitVec.toNat_inj, BitVec.toNat_allOnes, Cfg.counterRange]
  omega

/-- `u(clk) = u(high) * COUNTER_RANGE + u(low)` (rule R30). -/
theorem logicalClock_toNat (s : State) :
    (logicalClock s).toNat = s.high.toNat * s.cfg.counterRange + s.low.toNat := by
  rw [logicalClock, BitVec.toNat_append, ← Nat.shiftLeft_add_eq_or_of_lt s.low.isLt, Nat.shiftLeft_eq]
  rfl

/-! The choice of the next operation moves no clock. -/

@[simp] theorem clockNow_afterChoice (s : State) : clockNow (afterChoice s) = clockNow s := rfl
@[simp] theorem countedClock_afterChoice (s : State) : countedClock (afterChoice s) = countedClock s := rfl
@[simp] theorem atMaximum_afterChoice (s : State) : atMaximum (afterChoice s) = atMaximum s := rfl

/-- A counter below its maximum value gains exactly one (rule R151). -/
theorem toNat_add_one_of_lt {w : Nat} (x : BitVec w) (h : x.toNat + 1 < 2 ^ w) : (x + 1).toNat = x.toNat + 1 := by
  have hw : 1 < 2 ^ w := by omega
  have h1 : (1 : BitVec w).toNat = 1 := Nat.mod_eq_of_lt hw
  rw [BitVec.toNat_add, h1, Nat.mod_eq_of_lt h]

/-- A counter at its maximum value wraps to 0 (rule R152). -/
theorem toNat_add_one_of_max {w : Nat} (x : BitVec w) (h : x.toNat + 1 = 2 ^ w) : (x + 1).toNat = 0 := by
  have hx : x = BitVec.allOnes w := BitVec.eq_of_toNat_eq (by rw [BitVec.toNat_allOnes]; omega)
  rw [(add_one_eq_zero_iff x).2 hx]; simp

/-! ## Signed counters -/

theorem toInt_modEq_toNat {w : Nat} (x : BitVec w) : x.toInt ≡ x.toNat [ZMOD (2 ^ w : Nat)] := by
  rw [BitVec.toInt_eq_toNat_bmod]; exact Int.bmod_emod

/-- One count up is +1 modulo the register's range (rule R138). -/
theorem toInt_add_one_sub {w : Nat} (x : BitVec w) : (x + 1).toInt - x.toInt ≡ 1 [ZMOD (2 ^ w : Nat)] := by
  have h1 : ((x + 1).toNat : Int) ≡ x.toNat + 1 [ZMOD (2 ^ w : Nat)] := by
    have : (1 : BitVec w).toNat = 1 % 2 ^ w := by simp
    rw [BitVec.toNat_add, this]; simp [Int.ModEq]
  have h2 := (toInt_modEq_toNat (x + 1)).trans (h1.trans ((toInt_modEq_toNat x).symm.add_right 1))
  simpa only [add_sub_cancel_left] using h2.sub_right x.toInt

/-- One count down is -1 modulo the register's range (rule R138). -/
theorem toInt_sub_one_sub {w : Nat} (x : BitVec w) : (x - 1).toInt - x.toInt ≡ -1 [ZMOD (2 ^ w : Nat)] := by
  have h := (toInt_add_one_sub (x - 1)).neg
  rwa [BitVec.sub_add_cancel, neg_sub] at h

/-! ## The frame's fields -/

theorem wtField_carries (s : State) : carries s.wt (wtField s) :=
  ⟨fun h => BitVec.signExtend_eq_setWidth_of_le _ h, fun h => BitVec.toInt_signExtend_of_le h⟩

theorem utField_carries (s : State) : carries s.ut (utField s) :=
  ⟨fun h => BitVec.signExtend_eq_setWidth_of_le _ h, fun h => BitVec.toInt_signExtend_of_le h⟩

/-- In a legal build the 4-byte clock field holds the whole logical clock (decision D2). -/
theorem clockField_toNat {s : State} (h : s.cfg.cntW + s.cfg.extW = 32) :
    (clockField s).toNat = (logicalClock s).toNat := by
  rw [clockField, BitVec.toNat_setWidth]
  exact Nat.mod_eq_of_lt (Nat.lt_of_lt_of_eq (logicalClock s).isLt (by rw [Nat.add_comm, h]))

/-- The clock field of the live record of a `CURRENT` block (rule R116). -/
theorem recordClock_current {s : State} (h : s.cfg.gen = .current) : recordClock (liveRecord s) = clockField s := by
  simp only [recordClock, liveRecord, h]
  exact (BitVec.extractLsb'_append_extractLsb'_eq_extractLsb' (x := clockField s) (by rfl)).trans (by simp)

/-- In a legal build the clock of the live frame record is the logical clock, in both generations. -/
theorem recordClock_liveRecord {s : State} (h : s.cfg.wf = true) :
    (recordClock (liveRecord s)).toNat = (logicalClock s).toNat := by
  obtain ⟨-, -, -, -, hsum, hleg⟩ := widths_of_wf h
  cases hg : s.cfg.gen
  · rw [recordClock_current hg, clockField_toNat hsum]
  · have hc := hleg hg
    have hl : s.low.toNat < 2 ^ 16 := Nat.lt_of_lt_of_eq s.low.isLt (by rw [hc])
    have hh : s.high.toNat < 2 ^ 16 := Nat.lt_of_lt_of_eq s.high.isLt (by rw [show s.cfg.extW = 16 by omega])
    simp only [recordClock, liveRecord, hg, lowField, highField]
    rw [BitVec.toNat_append, ← Nat.shiftLeft_add_eq_or_of_lt (BitVec.isLt _), Nat.shiftLeft_eq, logicalClock_toNat,
      show s.cfg.counterRange = 2 ^ 16 by rw [Cfg.counterRange, hc], BitVec.toNat_setWidth,
      BitVec.toNat_setWidth, Nat.mod_eq_of_lt hl, Nat.mod_eq_of_lt hh]

/-- A record whose clock field is a state's logical clock gives its two halves back (rules R30 and R230). -/
theorem recordHalves_of_clock {s : State} {r : FrameRecord}
    (h : (recordClock r).toNat = (logicalClock s).toNat) : recordLow s.cfg r = s.low ∧ recordHigh s.cfg r = s.high := by
  have hl := s.low.isLt
  have hh := s.high.isLt
  rw [logicalClock_toNat, Cfg.counterRange] at h
  have hr : (s.high.toNat * 2 ^ s.cfg.cntW + s.low.toNat) / 2 ^ s.cfg.cntW = s.high.toNat := by
    rw [Nat.mul_comm, Nat.mul_add_div (Nat.two_pow_pos _), Nat.div_eq_of_lt hl, Nat.add_zero]
  constructor <;> apply BitVec.eq_of_toNat_eq
  · rw [recordLow, BitVec.extractLsb'_toNat, h, Nat.shiftRight_zero, Nat.mul_comm, Nat.mul_add_mod, Nat.mod_eq_of_lt hl]
  · rw [recordHigh, BitVec.extractLsb'_toNat, h, Nat.shiftRight_eq_div_pow, hr, Nat.mod_eq_of_lt hh]

/-- The record a snapshot frames carries the registers (rules R192 and R193). -/
theorem liveRecord_carries (s : State) : carriesRegisters s (liveRecord s) := by
  refine ⟨fun h => recordHalves_of_clock (recordClock_liveRecord h), ?_, ?_, ?_⟩
  · unfold liveRecord; split <;> exact wtField_carries s
  · unfold liveRecord; split <;> exact utField_carries s
  · unfold liveRecord; split <;> rfl

end Sys2Proof.Machine
end

