-- ==== Sys2Proof/Tests/Slice0.lean ====
section
/-! SUPPORT. The model's own tests, as named theorems. Expected values are those of spec/95_test_vectors.md (named V-…,
P… or S… in the docstrings) or are worked out by hand from the rule named. The last part holds one witness for each
statement with hypotheses: a concrete state and operands that meet them together. -/

namespace Sys2Proof.Tests

open Sys2Proof Sys2Proof.Machine

/-! ## Helpers -/

/-- What a reader sees of the next state an operation answers, if it answers one. -/
def after {α : Type} (i : Instr) (s : State) (see : State → α) : Option α :=
  match exec i s with
  | .next t => some (see t)
  | .fault _ => none
  | .refused _ => none

/-- The same of one step. -/
def stepped {α : Type} (s : State) (see : State → α) : Option α :=
  match step s with
  | .next t => some (see t)
  | .fault _ => none
  | .refused _ => none

/-- The same of `n` steps (the witnesses of the statements about runs take two at most). -/
def ran {α : Type} (n : Nat) (s : State) (see : State → α) : Option α :=
  match runSteps n s with
  | .next t => some (see t)
  | .fault _ => none
  | .refused _ => none

/-- The operation is refused for the given reason. -/
def refusedWith (i : Instr) (s : State) (r : Refusal) : Bool :=
  match exec i s with
  | .next _ => false
  | .fault _ => false
  | .refused q => q == r

/-- The operation faults for the given reason. -/
def faultsWith (i : Instr) (s : State) (f : Fault) : Bool :=
  match exec i s with
  | .next _ => false
  | .fault q => q == f
  | .refused _ => false

/-- A running `CURRENT` block: reset, with interrupts enabled, in a given phase. -/
def running (p : Phase) : State := { State.reset with gie := gieIn p, fg := p }

/-- A running `LEGACY` block. -/
def legacy (p : Phase) : State := { running p with cfg := { Cfg.default with gen := .legacy } }

/-- A block that wakes on every source, with `GLITCH_REARM = TOGGLE` and another mirror effect. -/
def otherCfg : Cfg :=
  { Cfg.default with
    glitch := .toggle, mirror := .other, zPol := .falling
    wakeSet := { a := true, z := true, ovf := true, cmp := true, rx := true } }

/-- Value set a of the frame vectors. -/
def setA : State :=
  { running .snap with
    high := 0x0001, low := 0x2345, wt := 0xFFFE, ut := 0x000003E8, diGen := 0x0A5A, diAux := 0x0003, diPort := 0x5A }

/-- V-F1: the `CURRENT`, `LE` frame of set a. -/
def frameF1 : List Byte :=
  [0x45, 0x11, 0x45, 0x23, 0x01, 0x00, 0xFE, 0xFF, 0xE8, 0x03, 0x00, 0x00, 0x5A, 0x0A, 0x03, 0x00, 0x0A]

/-- V-F5: the `CURRENT`, `BE` frame of set a. -/
def frameF5 : List Byte :=
  [0x45, 0x11, 0x00, 0x01, 0x23, 0x45, 0xFF, 0xFE, 0x00, 0x00, 0x03, 0xE8, 0x0A, 0x5A, 0x00, 0x03, 0x0A]

/-- V-F9: the `LEGACY`, `LE` frame of set a. -/
def frameF9 : List Byte := [0x45, 0x0E, 0x45, 0x23, 0x01, 0x00, 0xFE, 0xFF, 0xE8, 0x03, 0x00, 0x00, 0x5A, 0x0A]

/-- V-F13: the `LEGACY`, `BE` frame of set a. -/
def frameF13 : List Byte := [0x45, 0x0E, 0x23, 0x45, 0x00, 0x01, 0xFF, 0xFE, 0x00, 0x00, 0x03, 0xE8, 0x5A, 0x0A]

/-- The values of set a, in both shapes. -/
def recordA : FrameRecord :=
  { low := 0x2345, high := 0x0001, wt := 0xFFFE, ut := 0x000003E8, di := .current 0x0A5A 0x0003 }

def recordALegacy : FrameRecord := { recordA with di := .legacy 0x5A }

/-- A `CURRENT` block that has built the frame of V-F1 and is about to transmit. -/
def sending : State := { setA with fg := .eint, buf := Memory.writeBytes [] 0 frameF1 }

def cfgBE : Cfg := { Cfg.default with endian := .be }

def cfgLegacy : Cfg := { Cfg.default with gen := .legacy }

/-- A legal build with other widths: a 24-bit counter with an 8-bit extension, an 8-bit `wt` and a 36-bit `ut`. -/
def cfgWide : Cfg :=
  { gen := .current, endian := .le, wtW := 8, utW := 36, cntW := 24, extW := 8, cmpStep := 1, zPol := .rising
    armReset := .rising, glitch := .keep, wakeSet := Cfg.default.wakeSet, opsel := OpSel.default, mirror := .sameAux }

/-- That build, running in phase `F_SNAP`, with the counter at its maximum value and `wt`, `ut` negative. -/
def wide : State :=
  { State.powerOn cfgWide PowerOn.zero [] with
    fg := .snap, low := BitVec.allOnes 24
    high := (0x12 : BitVec 8), wt := (0xFE : BitVec 8), ut := (0xFFFFFFFFE : BitVec 36) }

/-! ## Well-formedness: each check refuses an ill-formed term -/

theorem test_cfg_default_wf : Cfg.default.wf = true := by decide
theorem test_cfg_zero_step_refused : ({ Cfg.default with cmpStep := 0 } : Cfg).wf = false := by decide
theorem test_cfg_duplicate_opsel_refused :
    ({ Cfg.default with opsel := { OpSel.default with wra := 0x02 } } : Cfg).wf = false := by decide
theorem test_cfg_wide_wf : cfgWide.wf = true := by decide
theorem test_cfg_widths_refused :
    ({ cfgWide with wtW := 0 } : Cfg).wf = false ∧ ({ cfgWide with utW := 8 } : Cfg).wf = false ∧
    ({ cfgWide with cntW := 0, extW := 32, cmpStep := 0 } : Cfg).wf = false ∧
    ({ cfgWide with cntW := 32, extW := 0, cmpStep := 1 } : Cfg).wf = false ∧
    ({ cfgWide with extW := 9 } : Cfg).wf = false ∧ ({ cfgWide with gen := .legacy } : Cfg).wf = false := by decide
theorem test_wf_din_other_shape : (Instr.din (.legacy 0)).wf Cfg.default = false := by decide
theorem test_wf_din_other_shape_legacy : (Instr.din (.current 0 0)).wf cfgLegacy = false := by decide
theorem test_wf_snap : Instr.snap.wf cfgLegacy = false := by decide
theorem test_wf_snapLegacy : Instr.snapLegacy.wf Cfg.default = false := by decide
theorem test_wf_commands :
    [Instr.cfgd 1 0, .cfga 1 0, .wrd 1 0, .wrdm 1 0, .wra 1 0].all (fun i => !i.wf cfgLegacy) = true := by decide
theorem test_wf_wrport : (Instr.wrport 0).wf Cfg.default = false := by decide
theorem test_wf_frame17 : (Instr.frame17 0 0 0 0 0 0).wf cfgLegacy = false := by decide
theorem test_wf_frame14 : (Instr.frame14 0 0 0 0 0).wf Cfg.default = false := by decide
theorem test_wf_frameDecode_length : (Instr.frameDecode (frameF1.take 16)).wf Cfg.default = false := by decide
theorem test_wf_out_of_range_pin_exists : (Instr.wrd 13 1).wf Cfg.default = true := by decide

/-! ## Decoding: words written out from the encodings -/

/-- V-D1. -/
theorem test_decode_cfgd : decodeTableWord 32 0xA9000301 = some (.cfgd 3 1) := by decide
/-- V-D2. -/
theorem test_decode_cfga : decodeTableWord 32 0xA9010C00 = some (.cfga 12 0) := by decide
/-- V-D5. -/
theorem test_decode_wrd : decodeTableWord 32 0xA90205FF = some (.wrd 5 255) := by decide
/-- V-D6. -/
theorem test_decode_wrdm : decodeTableWord 32 0xA9030201 = some (.wrdm 2 1) := by decide
/-- V-D7. -/
theorem test_decode_wra : decodeTableWord 32 0xA9040100 = some (.wra 1 0) := by decide
/-- V-D15. -/
theorem test_decode_wrport : decodeTableWord 8 0xA9 = some (.wrport 0xA9) := by decide
/-- V-F1 as a word. -/
theorem test_decode_frame17 : decodeTableWord 136 0x451145230100FEFFE80300005A0A03000A =
    some (.frame17 0x2345 0x0001 0xFFFE 0x000003E8 0x0A5A 0x0003) := by decide
/-- V-F9 as a word. -/
theorem test_decode_frame14 : decodeTableWord 112 0x450E45230100FEFFE80300005A0A =
    some (.frame14 0x2345 0x0001 0xFFFE 0x000003E8 0x5A) := by decide
/-- V-F5 and V-F13, big-endian. -/
theorem test_decode_frames_be :
    decode cfgBE .frame17 frameF5 = .ok (.frame17 0x2345 0x0001 0xFFFE 0x000003E8 0x0A5A 0x0003, []) ∧
    decode { cfgBE with gen := .legacy } .frame14 frameF13 =
      .ok (.frame14 0x2345 0x0001 0xFFFE 0x000003E8 0x5A, []) := by decide
/-- V-D11: operation byte 05 is no selector's. -/
theorem test_decode_unknown_selector : decode Cfg.default .cmd4 [0xA9, 5, 5, 1] = .error (.unknownSelector 5) := by
  decide
theorem test_decode_no_start : decode Cfg.default .cmd4 [0xA8, 2, 5, 1] = .error (.noStart 0xA8) := by decide
theorem test_decode_truncated : decode Cfg.default .cmd4 [0xA9, 2, 5] = .error .truncated := by decide
/-- V-X4. -/
theorem test_decode_not_a_frame : decode Cfg.default .frame17 (0x44 :: frameF1.tail) = .error .notAFrame := by decide
theorem test_decode_other_generation : decode Cfg.default .cmd1 [0x5A] = .error .otherGeneration := by decide
/-- Format `EVT` has no encoding (rule R92). -/
theorem test_decode_evt : decode Cfg.default .evt [0xA9, 2, 5, 1] = .error .noEncoding := by decide
/-- The other rows have format `EVT` and encode to no bytes. -/
theorem test_encode_evt :
    [Instr.tick, .pin true true true, .rxb 1, .txrdy, .din (.legacy 0), .isrA, .isrZ, .isrOvf, .isrCmp, .isrRx, .boot,
      .sleep, .mbTake, .mbClear, .dint, .snap, .snapLegacy, .eint, .txb, .frameDecode [1]].all
      (fun i => i.format == .evt && (encode Cfg.default i).isEmpty) = true := by decide
theorem test_encode_written_out :
    encode Cfg.default (.wrd 5 1) = [0xA9, 0x02, 0x05, 0x01] ∧ encode cfgLegacy (.wrport 0x5A) = [0x5A] ∧
    encode Cfg.default recordA.toInstr = frameF1 ∧ encode cfgLegacy recordALegacy.toInstr = frameF9 := by decide

/-! ## An opcode-table word as the next step -/

theorem test_fetch_wrd :
    stepped (State.reset.withFetchWord 32 0xA9020501) (fun t => (t.genOut.toList.take 6, t.fg, t.mbReady)) =
      some ([false, false, false, false, true, false], .clear, true) := by decide
theorem test_fetch_wrport :
    stepped (State.reset.withFetchWord 8 0x5A) (fun t => (t.doPort, t.fg)) = some (0x5A, .clear) := by decide
theorem test_fetch_frame17 :
    stepped (State.reset.withFetchWord 136 0x451145230100FEFFE80300005A0A03000A) frameInBuffer =
      some (some frameF1) := by decide
theorem test_fetch_frame14 :
    stepped (State.reset.withFetchWord 112 0x450E45230100FEFFE80300005A0A) frameInBuffer = some (some frameF9) := by
  decide

/-! ## Memory -/

theorem test_reset_memory_wf : Memory.wf State.reset.buf := List.Pairwise.nil
theorem test_memory_big_endian : Memory.writeField .be [] 2 2 (0x2345 : Word16) = [(2, 0x23), (3, 0x45)] := by decide
theorem test_memory_rewrite :
    Memory.write (Memory.writeField .le [] 2 2 (0x2345 : Word16)) 2 0x46 = [(2, 0x46), (3, 0x23)] := by decide

/-! ## The environment -/

/-- V-P2, V-P10 and V-P19: both edges at once. -/
theorem test_pin_edges :
    after (.pin true true true) (running .sleep) (fun t => (t.ifgA, t.ifgZ, t.pinA, t.pinB, t.pinZ)) =
      some (true, true, true, true, true) := by decide
/-- V-P3 and V-P17: an edge of the polarity not armed sets nothing, and a set flag stays. -/
theorem test_pin_wrong_polarity :
    after (.pin false true false) { running .sleep with pinA := true, ifgZ := true } (fun t => (t.ifgA, t.ifgZ)) =
      some (false, true) := by decide
/-- V-T2; and by rule R151 a 24-bit counter wraps at `2^24`, not at `2^16`. -/
theorem test_tick_wraps :
    after .tick { running .sleep with low := 0xFFFF, thr := 0 } (fun t => (t.low.toNat, t.ifgOvf, t.ifgCmp)) =
      some (0, true, true) ∧
    after .tick wide (fun t => (t.low.toNat, t.ifgOvf)) = some (0, true) ∧
    after .tick { wide with low := (0xFFFF : BitVec 24) } (fun t => (t.low.toNat, t.ifgOvf)) =
      some (0x10000, false) := by decide
/-- V-T4. -/
theorem test_tick_compares_after_counting :
    after .tick { running .sleep with low := 0x1000, thr := 0x1000 } (fun t => (t.low.toNat, t.ifgOvf, t.ifgCmp)) =
      some (0x1001, false, false) := by decide
/-- V-R14: the unread byte is overwritten. -/
theorem test_rxb_overrun :
    after (.rxb 0x02) { running .sleep with rxReg := 0xA9, ifgRx := true } (fun t => (t.rxReg, t.ifgRx)) =
      some (0x02, true) := by decide
/-- V-B2. -/
theorem test_txrdy : after .txrdy (running .tx) (fun t => t.txRdy) = some true := by decide
/-- P2: both shapes of `DIN`. -/
theorem test_din :
    after (.din (.current 0x0001 0x0800)) (running .sleep) (fun t => (t.diGen, t.diAux)) = some (0x0001, 0x0800) ∧
    after (.din (.legacy 0x81)) (legacy .sleep) (fun t => t.diPort) = some 0x81 := by decide

/-! ## The handlers -/

/-- V-A12. -/
theorem test_isrA_wraps :
    after .isrA { running .sleep with ifgA := true, pinA := true, pinB := true }
      (fun t => (t.wt.toNat, t.ut.toNat, t.arm, t.ifgA, t.wake)) =
      some (0xFFFF, 0xFFFFFFFF, .falling, false, false) := by decide
/-- V-A1, with `GLITCH_REARM = TOGGLE`, and V-A16. -/
theorem test_isrA_glitch :
    after .isrA { running .sleep with cfg := otherCfg, ifgA := true, wt := 0x0010 }
      (fun t => (t.wt.toNat, t.arm, t.ifgA, t.wake)) = some (0x0010, .falling, false, true) := by decide
/-- V-Z4: no level test, `ut` and `arm` kept. -/
theorem test_isrZ :
    after .isrZ { running .sleep with ifgZ := true, wt := 0x8000, ut := 0x7FFFFFFF, arm := .falling }
      (fun t => (t.wt.toNat, t.ut.toNat, t.arm, t.ifgZ)) = some (0, 0x7FFFFFFF, .falling, false) := by decide
/-- V-O4. -/
theorem test_isrOvf :
    after .isrOvf { running .sleep with ifgOvf := true, high := 0xFFFF } (fun t => (t.high.toNat, t.ifgOvf, t.wake)) =
      some (0, false, false) := by decide
/-- V-C1. -/
theorem test_isrCmp :
    after .isrCmp { running .sleep with ifgCmp := true, thr := 0x1000 } (fun t => (t.thr.toNat, t.ifgCmp, t.wake)) =
      some (0x2000, false, true) := by decide
/-- V-R1: the fourth byte posts. -/
theorem test_isrRx_posts :
    after .isrRx { running .sleep with ifgRx := true, rxReg := 1, pstate := .awaitValue, pOp := 2, pPin := 5 }
      (fun t => (t.mbCommand, t.mbReady, t.pstate, t.wake)) =
      some ({ op := 2, pin := 5, val := 1 }, true, .awaitStart, true) := by decide
/-- V-R15. -/
theorem test_isrRx_legacy :
    after .isrRx { legacy .sleep with ifgRx := true, rxReg := 0x5A } (fun t => (t.mbByte, t.mbReady, t.wake)) =
      some (0x5A, true, true) := by decide
/-- V-R3 and V-R5: 0xA9 inside a command is a field. -/
theorem test_parser_start_byte_as_field :
    (cmdParse .awaitFlag 0 0 0xA9).pOp = 0xA9 ∧ (cmdParse .awaitPin 2 0 0xA9).pPin = 0xA9 := by decide
/-- V-A15. -/
theorem test_isrA_masked : refusedWith .isrA { running .snap with ifgA := true } .notEnabled = true := by decide

/-! ## The foreground -/

/-- V-L6, the last step. -/
theorem test_boot :
    after .boot { State.reset with ifgA := true, ifgRx := true, ifgCmp := true, low := 3, rxReg := 0x41 }
      (fun t => ((t.ifgA, t.ifgRx, t.ifgCmp), t.low.toNat, t.rxReg, t.gie, t.fg)) =
      some ((false, false, false), 3, 0x41, true, .sleep) := by decide
/-- V-L2. -/
theorem test_sleep : after .sleep { running .sleep with wake := true } (fun t => (t.wake, t.fg)) =
    some (false, .take) := by decide
/-- V-M1. -/
theorem test_mbTake_empty : after .mbTake (running .take) (fun t => (t.fg, t.mbReady)) = some (.dint, false) := by decide
/-- V-M2. -/
theorem test_mbTake_applies :
    after .mbTake { running .take with mbReady := true, mbCommand := { op := 2, pin := 5, val := 1 } }
      (fun t => (t.genOut.toList.take 6, t.fg, t.mbReady)) =
      some ([false, false, false, false, true, false], .clear, true) := by decide
/-- V-M3. -/
theorem test_mbClear : after .mbClear { running .clear with mbReady := true } (fun t => (t.mbReady, t.fg)) =
    some (false, .dint) := by decide
/-- V-L4. -/
theorem test_dint : after .dint { running .dint with ifgZ := true } (fun t => (t.gie, t.fg, t.ifgZ)) =
    some (false, .snap, true) := by decide
/-- V-F1. -/
theorem test_snap : after .snap setA (fun t => (frameInBuffer t, t.fg)) = some (some frameF1, .eint) := by decide
/-- Worked out from rules R110 and R112: the clock is `12 ++ FFFFFF`, `wt` is -2, `ut` keeps its low 32 bits. -/
theorem test_snap_other_widths :
    after .snap wide frameInBuffer = some (some
      [0x45, 0x11, 0xFF, 0xFF, 0xFF, 0x12, 0xFE, 0xFF, 0xFE, 0xFF, 0xFF, 0xFF, 0, 0, 0, 0, 0x0A]) := by decide
/-- V-F13. -/
theorem test_snapLegacy :
    after .snapLegacy { setA with cfg := { cfgBE with gen := .legacy } } (fun t => (frameInBuffer t, t.fg)) =
      some (some frameF13, .eint) := by decide
/-- V-L5. -/
theorem test_eint : after .eint { running .eint with txIdx := 17 } (fun t => (t.gie, t.txIdx, t.fg)) =
    some (true, 0, .tx) := by decide
/-- V-B4: the last byte. -/
theorem test_txb_last :
    after .txb { sending with fg := .tx, txIdx := 16, txRdy := true } (fun t => (t.txOut, t.txIdx, t.txRdy, t.fg)) =
      some ([0x0A], 17, false, .sleep) := by decide
/-- V-B6, and the two accesses rule R61 and U11 say no run makes. -/
theorem test_txb_stops :
    refusedWith .txb { running .sleep with txRdy := true } .notEnabled = true ∧
    faultsWith .txb { sending with fg := .tx, txIdx := 17, txRdy := true } .bufferOffset = true ∧
    faultsWith .txb { running .tx with txRdy := true } .bufferUnwritten = true := by decide

/-! ## The host commands -/

/-- V-D1. -/
theorem test_cfgd : after (.cfgd 3 1) (running .take) (fun t => t.genMode.toList.take 4) = some [0, 0, 1, 0] := by decide
/-- V-D2, with a non-zero mode: pin 12 is the last. -/
theorem test_cfga : after (.cfga 12 7) (running .take) (fun t => t.auxMode.toList.drop 10) = some [0, 7] := by decide
/-- V-D9 and V-D12: pin 13 is out of range, pin 12 is not; 2 means high. -/
theorem test_wrd :
    after (.wrd 13 1) (running .take) (fun t => t.genOut == State.reset.genOut) = some true ∧
    after (.wrd 12 2) (running .take) (fun t => t.genOut.toList.drop 10) = some [false, true] := by decide
/-- V-D6. -/
theorem test_wrdm :
    after (.wrdm 2 1) (running .take) (fun t => (t.genOut.toList.take 3, t.auxOut.toList.take 3)) =
      some ([false, true, false], [false, true, false]) := by decide
/-- V-D7, from a high pin. -/
theorem test_wra :
    after (.wra 1 0) { running .take with auxOut := Vector.replicate 12 true }
      (fun t => (t.auxOut.toList.take 2, t.genOut.toList.take 2)) = some ([false, true], [false, false]) := by decide
/-- V-D15. -/
theorem test_wrport : after (.wrport 0xA9) (legacy .take) (fun t => t.doPort) = some 0xA9 := by decide

/-! ## Frames and their receiver -/

theorem test_frame17_row :
    after recordA.toInstr (running .sleep) (fun t => (frameInBuffer t, t.fg)) = some (some frameF1, .sleep) := by decide
theorem test_frame14_row : after recordALegacy.toInstr (legacy .sleep) frameInBuffer = some (some frameF9) := by decide
/-- V-X1. -/
theorem test_frameDecode : after (.frameDecode frameF1) (running .sleep) (fun t => t.hostFrame) = some (some recordA) := by
  decide
/-- V-X5 and V-X7. -/
theorem test_frameDecode_refuses :
    frameDecode Cfg.default (frameF1.set 1 0x0E) = none ∧ frameDecode cfgLegacy (frameF1.take 14) = none := by decide
/-- V-X2. -/
theorem test_frameDecode_wrong_order :
    frameDecode cfgBE frameF1 =
      some { low := 0x0100, high := 0x4523, wt := 0xFEFF, ut := 0xE8030000, di := .current 0x5A0A 0x0300 } := by decide
/-- V-X9. -/
theorem test_resync : resync Cfg.default 0 ([0x0A, 0x45] ++ frameF1 ++ frameF1) = [recordA, recordA] := by decide

/-! ## Witnesses: states and operands that meet the hypotheses of each statement -/

theorem witness_OverflowFlagOnlyFromWrap :
    ({ running .sleep with low := 0xFFFF } : State).low.toNat = 2 ^ (running .sleep).cfg.cntW - 1 ∧
    after .tick { running .sleep with low := 0xFFFF } (fun t => (t.low.toNat, t.ifgOvf)) = some (0, true) ∧
    ({ running .sleep with low := 0xFFFF } : State).ifgOvf = false := by decide
theorem witness_EnvironmentWritesLatches :
    (running .sleep).cfg.gen = .current ∧ (legacy .sleep).cfg.gen = .legacy ∧
    DigitalIn.fits (.legacy 0) (running .sleep).cfg.gen = false := by decide
theorem witness_RisingEdgeCounts :
    let s := { running .sleep with ifgA := true, pinA := true }
    s.gie = true ∧ s.ifgA = true ∧ s.arm = .rising ∧ s.pinA = true := by decide
theorem witness_FallingEdgeCounts :
    let s := { running .sleep with ifgA := true, arm := .falling }
    s.gie = true ∧ s.ifgA = true ∧ s.arm = .falling ∧ s.pinA = false := by decide
theorem witness_GlitchEdgeIsIgnored :
    let s := { running .sleep with ifgA := true }
    let t := { s with arm := .falling, pinA := true }
    s.gie = true ∧ s.ifgA = true ∧ s.arm = .rising ∧ s.pinA = false ∧ t.arm = .falling ∧ t.pinA = true := by decide
/-- V-Z5 and V-Z7 start here. -/
theorem witness_IndexZeroesWrappedTicks :
    let s := { running .sleep with ifgA := true, ifgZ := true, pinA := true }
    let t := { s with arm := .falling, pinA := false }
    s.gie = true ∧ s.ifgZ = true ∧ s.ifgA = true ∧ s.arm = .rising ∧ s.pinA = true ∧ t.arm = .falling ∧
      t.pinA = false ∧ (running .snap).gie = false ∧ (running .sleep).ifgZ = false := by decide
theorem witness_OverflowHandlerExtendsClock :
    let s := { running .sleep with ifgOvf := true }
    s.gie = true ∧ s.ifgOvf = true ∧ (running .snap).gie = false ∧ (running .sleep).ifgOvf = false := by decide
theorem witness_CompareHandlerAdvancesThreshold :
    let s := { running .sleep with ifgCmp := true }
    s.gie = true ∧ s.ifgCmp = true ∧ (running .snap).gie = false ∧ (running .sleep).ifgCmp = false := by decide
theorem witness_LegacyReceivePostsRawByte :
    let s := { legacy .sleep with ifgRx := true }
    s.cfg.gen = .legacy ∧ s.gie = true ∧ s.ifgRx = true := by decide
theorem witness_CurrentReceiveParsesByte :
    [ParserState.awaitStart, .awaitFlag, .awaitPin, .awaitValue].all (fun p =>
      let s := { running .sleep with ifgRx := true, pstate := p }
      s.cfg.gen == .current && s.gie && s.ifgRx && s.pstate == p) = true := by decide
/-- Every handler at once: also the hypotheses of `IndependentHandlersCommute`, for A with OVF. -/
theorem witness_HandlersClearTheirFlag :
    let s := { running .sleep with ifgA := true, ifgZ := true, ifgOvf := true, ifgCmp := true, ifgRx := true }
    [Source.a, .z, .ovf, .cmp, .rx].all (fun src => handlerEnabled src s) = true := by decide
theorem witness_IndependentHandlersCommute :
    let s := { running .sleep with ifgA := true, ifgOvf := true }
    Source.a ≠ Source.ovf ∧ ¬(Source.a = .a ∧ Source.ovf = .z) ∧ ¬(Source.a = .z ∧ Source.ovf = .a) ∧
      handlerEnabled .a s = true ∧ handlerEnabled .ovf s = true := by decide
theorem witness_BootEntersLoop : State.reset.fg = .boot ∧ (running .sleep).fg ≠ .boot := by decide
theorem witness_SleepEndsOnWake :
    let s := { running .sleep with wake := true }
    s.fg = .sleep ∧ s.wake = true ∧ (running .take).fg ≠ .sleep ∧ (running .sleep).wake = false := by decide
theorem witness_TakeAppliesMailbox :
    let s := { running .take with mbReady := true, mbCommand := { op := 4, pin := 1, val := 0 } }
    let u := { s with mbCommand := { op := 5, pin := 5, val := 1 } }
    let l := { legacy .take with mbReady := true }
    (running .take).mbReady = false ∧ s.fg = .take ∧ s.mbReady = true ∧ s.cfg.gen = .current ∧ s.cfg.wf = true ∧
      s.mbCommand.op = s.cfg.opsel.code .wra ∧ u.mbCommand.op ∉ u.cfg.opsel.codes ∧ l.fg = .take ∧ l.mbReady = true ∧
      l.cfg.gen = .legacy ∧ (running .sleep).fg ≠ .take := by decide
theorem witness_ClearEmptiesMailbox : (running .clear).fg = .clear ∧ (running .sleep).fg ≠ .clear := by decide
theorem witness_DintMasksHandlers :
    let s := { running .snap with ifgA := true }
    let e := { running .eint with ifgA := true }
    (running .dint).fg = .dint ∧ s.fg ≠ .dint ∧ s.gie = false ∧ pending .a s = true ∧ Instr.tick ≠ .boot ∧
      after .tick s (fun t => pending .a t) = some true ∧ e.fg = .eint ∧ pending .a e = true := by decide
/-- Offsets 16 and 17 are the two sides of the frame's end. -/
theorem witness_SnapLaysCurrentFrame :
    setA.cfg.gen = .current ∧ setA.fg = .snap ∧ (running .sleep).fg ≠ .snap ∧ (legacy .snap).cfg.gen = .legacy ∧
      after .snap setA (fun t => (Memory.read t.buf 16, Memory.read t.buf 17)) = some (some 0x0A, none) := by decide
theorem witness_SnapLaysLegacyFrame :
    (legacy .snap).cfg.gen = .legacy ∧ (legacy .snap).fg = .snap ∧ (legacy .sleep).fg ≠ .snap ∧
      after .snapLegacy (legacy .snap) (fun t => (Memory.read t.buf 13, Memory.read t.buf 14)) =
        some (some 0x0A, none) := by decide
theorem witness_EintReleasesHandlers :
    let e := { running .eint with ifgRx := true }
    e.fg = .eint ∧ (running .sleep).fg ≠ .eint ∧ pending .rx e = true ∧
      after .eint e (fun t => handlerEnabled .rx t) = some true ∧
      after .isrRx { running .tx with ifgRx := true } (fun t => t.buf) = some [] ∧
      after (snapOf .current) setA (fun t => t.fg) = some .eint := by decide
/-- The transmit index at 0, 16 and 17. -/
theorem witness_TransmitSendsOneByte :
    let s := { sending with fg := .tx, txRdy := true }
    let l := { s with txIdx := 16 }
    let o := { s with txIdx := 17 }
    let e := { running .tx with txRdy := true }
    s.fg = .tx ∧ s.txRdy = true ∧ s.txIdx < s.cfg.frameLen ∧ Memory.read s.buf s.txIdx = some 0x45 ∧
      l.txIdx < l.cfg.frameLen ∧ Memory.read l.buf l.txIdx = some 0x0A ∧ o.cfg.frameLen ≤ o.txIdx ∧
      e.txIdx < e.cfg.frameLen ∧ Memory.read e.buf e.txIdx = none ∧ (running .sleep).fg ≠ .tx ∧
      (running .tx).txRdy = false := by decide
theorem witness_ForegroundOrder :
    Instr.agent .mbTake = some .foreground ∧ canStep .mbTake (running .take) = true ∧
      after .mbTake (running .take) (fun t => t.fg) = some .dint ∧ Instr.agent .tick ≠ some .foreground ∧
      after .tick (running .take) (fun t => t.fg) = some .take := by decide
theorem witness_ConfigurePinRecordsMode : (running .take).cfg.gen = .current := by decide
/-- Pins 0, 13 and 255 are the boundary of what is out of range, 1 and 12 of what is in range. -/
theorem witness_WriteGeneralPin :
    (running .take).cfg.gen = .current ∧ ((0 : Byte) = 0 ∨ 13 ≤ (0 : Byte).toNat) ∧ 13 ≤ (13 : Byte).toNat ∧
      13 ≤ (255 : Byte).toNat ∧ after (.wrd 1 1) (running .take) (fun t => t.genOut[0]) = some true ∧
      after (.wrd 12 1) (running .take) (fun t => t.genOut[11]) = some true := by decide
theorem witness_WriteMirroredPin :
    (running .take).cfg.gen = .current ∧ (running .take).cfg.mirror = .sameAux ∧ otherCfg.gen = .current ∧
      otherCfg.mirror = .other := by decide
theorem witness_WriteAuxiliaryPin :
    (running .take).cfg.gen = .current ∧ ((0 : Byte) = 0 ∨ 13 ≤ (0 : Byte).toNat) ∧ 13 ≤ (13 : Byte).toNat ∧
      after (.wra 12 1) (running .take) (fun t => t.auxOut[11]) = some true := by decide
theorem witness_OutOfRangePinDoesNothing :
    let s := { running .take with mbReady := true, mbCommand := { op := 2, pin := 0, val := 1 } }
    let t := { s with mbCommand := { op := 2, pin := 13, val := 1 } }
    let r := { running .sleep with ifgRx := true, pstate := .awaitValue }
    s.cfg.gen = .current ∧ s.fg = .take ∧ s.mbReady = true ∧ s.mbCommand.pin = 0 ∧ 13 ≤ t.mbCommand.pin.toNat ∧
      r.gie = true ∧ r.ifgRx = true ∧ r.pstate = .awaitValue := by decide
theorem witness_RawByteBecomesOutputPort : cfgLegacy.gen = .legacy ∧ (legacy .take).cfg.gen = .legacy := by decide
theorem witness_CommandsTouchOnlyOutputs :
    (Instr.wrd 5 1).isCommand = true ∧ after (.wrd 5 1) (running .take) (fun t => t.genOut[4]) = some true := by decide
/-- Program P3a with the foreground already in `F_TAKE`. -/
theorem witness_HostCommandTakesEffect :
    let s := { running .take with schedule := feed [0xA9, 0x02, 0x05, 0x01] ++ [Instr.mbTake] }
    s.cfg.wf = true ∧ s.cfg.gen = .current ∧ s.gie = true ∧ s.pstate = .awaitStart ∧ s.fg = .take ∧
      s.schedule = feed (encode s.cfg (Selector.wrd.command 5 1)) ++ .mbTake :: [] := by decide
/-- Programs P3b and P3c. -/
theorem witness_LastCommandWins :
    let s := { running .take with
      schedule := feed [0xA9, 0x02, 0x05, 0x01, 0xA9, 0x04, 0x07, 0x01] ++ [Instr.mbTake] }
    let l := { legacy .take with schedule := feed [0x5A, 0xA5] ++ [Instr.mbTake] }
    s.cfg.wf = true ∧ s.cfg.gen = .current ∧ s.gie = true ∧ s.pstate = .awaitStart ∧ s.fg = .take ∧
      s.schedule = feed (encode s.cfg (Selector.wrd.command 5 1) ++ encode s.cfg (Selector.wra.command 7 1)) ++
        .mbTake :: [] ∧
      l.cfg.gen = .legacy ∧ l.gie = true ∧ l.fg = .take ∧ l.schedule = feed [0x5A, 0xA5] ++ .mbTake :: [] := by decide
/-- Program P6. -/
theorem witness_TakeClearWindowErasesCommand :
    let s := { running .take with mbReady := true, ifgRx := true, pstate := .awaitValue, pOp := 2, pPin := 6, rxReg := 1 }
    let l := { legacy .take with mbReady := true, ifgRx := true }
    s.fg = .take ∧ s.mbReady = true ∧ s.gie = true ∧ s.ifgRx = true ∧ s.cfg.gen = .current ∧
      s.pstate = .awaitValue ∧ l.fg = .take ∧ l.mbReady = true ∧ l.gie = true ∧ l.ifgRx = true ∧
      l.cfg.gen = .legacy := by decide
/-- The forced recovery of V-R13. -/
theorem witness_ThreeBytesRecoverParser :
    (0 : Byte) ≠ 0xA9 ∧ (cmdParse .awaitValue 0xEE 0xEE 0).pstate = .awaitStart := by decide
/-- The last byte of a field and the offset after it. -/
theorem witness_MemWriteLaysFieldBytes :
    3 < 4 ∧ (2 + 4 ≤ 6) ∧ Memory.read (Memory.writeField .le [] 2 4 (0x00012345 : Word32)) (2 + 3) = some 0x00 ∧
      Memory.read (Memory.writeField .be [] 2 4 (0x00012345 : Word32)) (2 + 3) = some 0x45 ∧
      Memory.read (Memory.writeField .be [] 2 4 (0x00012345 : Word32)) 6 = none := by decide
theorem witness_FrameRowsLayTheirBytes :
    recordA.fits (running .sleep).cfg.gen = true ∧ recordALegacy.fits (legacy .sleep).cfg.gen = true := by decide
theorem witness_FrameDecodeRecordsResult :
    frameF1.length = Cfg.default.frameLen ∧ (frameDecode Cfg.default frameF1).isSome = true ∧
      frameF9.length = cfgLegacy.frameLen := by decide
theorem witness_SnapshotRoundTrip :
    setA.fg = .snap ∧ (legacy .snap).fg = .snap ∧ wide.fg = .snap ∧ setA.cfg.wf = true ∧ (legacy .snap).cfg.wf = true ∧
      wide.cfg.wf = true := by decide
theorem witness_WrongByteOrderReversesFields :
    recordA.fits Cfg.default.gen = true ∧ Endian.be ≠ Cfg.default.endian := by decide
theorem witness_FrameOnTheWire :
    let s := { sending with schedule := .eint :: (List.replicate 17 [Instr.txrdy, Instr.txb]).flatten }
    s.fg = .eint ∧ frameInBuffer s = some frameF1 ∧
      s.schedule = .eint :: (List.replicate s.cfg.frameLen [Instr.txrdy, Instr.txb]).flatten ++ [] := by decide
theorem witness_ResyncDeliversFramesSent :
    recordA.fits Cfg.default.gen = true ∧ (frameF1.take 16).length < Cfg.default.frameLen := by decide
theorem witness_DecodeOfEncode :
    Cfg.default.wf = true ∧ (Instr.wrd 5 1).wf Cfg.default = true ∧ (Instr.wrd 5 1).format ≠ .evt := by decide
theorem witness_EncodeOfDecode :
    decode Cfg.default .cmd4 [0xA9, 0x02, 0x05, 0x01, 0x77] = .ok (.wrd 5 1, [0x77]) := by decide
theorem witness_StepRunsScheduledOperation :
    let s := { running .take with schedule := [.mbTake, .sleep] }
    s.schedule = .mbTake :: [.sleep] ∧ canStep .mbTake s = true ∧ canStep .sleep s = false ∧
      State.reset.schedule = [] := by decide
theorem witness_TakeStepRunsDecodedCommand :
    let s := { running .take with
      mbReady := true, mbCommand := { op := 2, pin := 5, val := 1 }, schedule := [Instr.mbTake] }
    let l := { legacy .take with mbReady := true, mbByte := 0x5A, schedule := [Instr.mbTake] }
    s.fg = .take ∧ s.mbReady = true ∧ s.cfg.gen = .current ∧ s.schedule = .mbTake :: [] ∧
      decode s.cfg .cmd4 [Config.cmdStart, s.mbCommand.op, s.mbCommand.pin, s.mbCommand.val] = .ok (.wrd 5 1, []) ∧
      l.fg = .take ∧ l.mbReady = true ∧ l.cfg.gen = .legacy ∧ l.schedule = .mbTake :: [] ∧
      decode l.cfg .cmd1 [l.mbByte] = .ok (.wrport 0x5A, []) := by decide
theorem witness_EnabledExactlyWhenItSteps :
    Instr.agent .sleep ≠ none ∧ Instr.sleep.wf (running .sleep).cfg = true ∧ canStep .sleep (running .sleep) = false ∧
      canStep .dint (running .dint) = true ∧ Instr.dint ≠ .txb := by decide
theorem witness_WritersOfRegisters :
    Instr.agent .isrOvf ≠ none ∧
      after .isrOvf { running .sleep with ifgOvf := true } (fun t => (t.high.toNat, t.ifgOvf)) =
        some (1, false) := by decide
theorem witness_CriticalSectionKeepsRegisters :
    let s := { setA with schedule := [.snap] }
    s.gie = false ∧ stepped s (fun t => (t.fg, t.wt.toNat)) = some (.eint, 0xFFFE) := by decide
theorem witness_CountersMoveTogether :
    after .isrA { running .sleep with ifgA := true, pinA := true } (fun t => (t.wt.toNat, t.ut.toNat)) =
      some (1, 1) := by decide
/-- One counted edge: program P1, step 1. -/
theorem witness_WrappedTicksFollowUnwrapped :
    let s := { running .sleep with ifgA := true, pinA := true, schedule := [.isrA] }
    s.cfg.wtW < s.cfg.utW ∧ 1 ≤ s.schedule.length ∧ Instr.isrZ ∉ s.schedule.take 1 ∧ s.wt = 0 ∧
      ran 1 s (fun t => (decide (((t.ut.toInt - s.ut.toInt).bmod (2 ^ s.cfg.utW)).natAbs < 2 ^ (s.cfg.wtW - 1)),
        t.wt.toInt)) = some (true, 1) := by decide
/-- One wrap, served: two operations. -/
theorem witness_ClockDifferenceLaw :
    let s := { running .sleep with low := 0xFFFF, schedule := [.tick, .isrOvf] }
    2 ≤ s.schedule.length ∧ s.fg ≠ .boot ∧ losesOverflow s = false ∧ wraps 2 s = 1 ∧ s.ifgOvf = false ∧
      ran 2 s (fun t => (t.ifgOvf, t.high.toNat)) = some (false, 1) := by decide
theorem witness_ClockDifferenceLaw_keeps :
    keepsOverflows 2 { running .sleep with low := 0xFFFF, schedule := [.tick, .isrOvf] } :=
  ⟨by decide, by decide, trivial⟩
theorem witness_LostOverflowCostsOnePeriod :
    let s := { running .sleep with low := 0xFFFF, ifgOvf := true }
    Instr.agent .tick ≠ none ∧ Instr.tick ≠ .boot ∧
      after .tick s (fun t => countedClock t == countedClock s + 1 - 65536) = some true := by decide
theorem witness_PendingOverflowFrameClock :
    ({ setA with ifgOvf := true } : State).fg = .snap ∧ ({ setA with ifgOvf := true } : State).ifgOvf = true ∧
      setA.ifgOvf = false ∧ setA.cfg.wf = true := by decide
theorem witness_PowerOnMeetsInvariant : Cfg.default.wf = true := by decide

/-- A state that meets the invariant: the launch of the block, with `BOOT` chosen next. -/
theorem witness_Inv : Inv { State.reset with schedule := [.boot] } where
  cfgLegal := by decide
  bufCanonical := List.Pairwise.nil
  bufInRange := fun cell hc => by cases hc
  gieOfPhase := rfl
  idxBounded := Nat.zero_le _
  idxInFrame := fun h => by cases h
  frameBuilt := fun h => by rcases h with h | h <;> cases h
  outputFramed := ⟨[], by simp, rfl⟩

/-- That state steps: `BOOT` runs. -/
theorem witness_StepKeepsInvariant :
    stepped { State.reset with schedule := [.boot] } (fun t => (t.fg, t.gie)) = some (.sleep, true) := by decide

/-- A state that meets the invariant in the middle of a transmission: one byte of the frame of V-F1 is sent. -/
theorem witness_Inv_sending :
    Inv { sending with fg := .tx, gie := true, txIdx := 1, txOut := [0x45] } where
  cfgLegal := by decide
  bufCanonical := by decide
  bufInRange := by decide
  gieOfPhase := rfl
  idxBounded := by decide
  idxInFrame := fun _ => by decide
  frameBuilt := fun _ => ⟨frameF1, recordA, by decide, by decide, by decide⟩
  outputFramed := ⟨[], by simp, by decide⟩

end Sys2Proof.Tests
end

section
/-! The frame buffer's `MemWrite` and `MemRead` as one pair (rule R13): what each offset of a written field holds, and that
reading the field back gives the value written. -/

namespace Sys2Proof.Machine

/-- Inside the field, `MemWrite` leaves the field's own bytes. -/
theorem Memory.read_writeField_inside (e : Endian) (m : Memory) (addr n : Nat) {w : Nat} (v : BitVec w) {k : Nat}
    (hk : k < n) : Memory.read (Memory.writeField e m addr n v) (addr + k) = (fieldBytes e n v)[k]? := by
  rw [Memory.read_writeField, if_pos (by omega), Nat.add_sub_cancel_left]

/-- Outside the field, `MemWrite` changes nothing. -/
theorem Memory.read_writeField_outside (e : Endian) (m : Memory) (addr n : Nat) {w : Nat} (v : BitVec w) {a : Nat}
    (ha : a < addr ∨ addr + n ≤ a) : Memory.read (Memory.writeField e m addr n v) a = Memory.read m a := by
  rw [Memory.read_writeField, if_neg (by omega)]

/-- The bytes of a written field are read back in the order they were laid. -/
theorem Memory.readBytes_writeField (e : Endian) (m : Memory) (addr n : Nat) {w : Nat} (v : BitVec w) :
    Memory.readBytes (Memory.writeField e m addr n v) addr n = some (fieldBytes e n v) :=
  Memory.readBytes_eq_some.2
    ⟨fieldBytes_length e n v, fun _ hk => Memory.read_writeField_inside e m addr n v hk⟩

/-- `MemRead` inverts `MemWrite` on a field that has room for the value. -/
theorem Memory.readField_writeField (e : Endian) (m : Memory) (addr n : Nat) {w : Nat} (v : BitVec w)
    (hw : w ≤ 8 * n) : Memory.readField e (Memory.writeField e m addr n v) addr n w = some v := by
  rw [Memory.readField, Memory.readBytes_writeField, Option.map_some, joinBytes_fieldBytes e n w v hw]

/-- Settles O36: the offsets inside the field by byte order, those outside it by the frame of `MemWrite`, and the value
read back because `joinBytes` inverts `fieldBytes`. -/
theorem memWriteLaysFieldBytes : Obligations.MemWriteLaysFieldBytes := by
  intro e m addr n v
  refine ⟨?littleEndian, ?bigEndian, ?frame, ?readBack⟩
  case littleEndian =>
    rintro k hk rfl
    rw [Memory.read_writeField_inside _ m addr n v hk, fieldBytes_getElem?_le n v k hk, byteOf]
  case bigEndian =>
    rintro k hk rfl
    rw [Memory.read_writeField_inside _ m addr n v hk, fieldBytes_getElem?_be n v k hk, byteOf]
  case frame => exact fun _ ha => Memory.read_writeField_outside e m addr n v ha
  case readBack => exact Memory.readField_writeField e m addr n v le_rfl

end Sys2Proof.Machine
end

section
/-! The raw command of a `LEGACY` block (rules R104, R118 and R267): which decoder reads it and when its row has a next
state. -/

namespace Sys2Proof.Machine

/-- A `LEGACY` block reads its commands with the raw decoder, never with the structured one (rule R118). -/
theorem decode_cmd1_of_legacy {c : Cfg} (hgen : c.gen = .legacy) (bs : List Byte) :
    decode c .cmd1 bs = decodeCmd1 bs := by
  simp only [decode, hgen]

/-- The row `WRPORT` has a next state exactly in a `LEGACY` block, and then writes the output port alone. -/
theorem exec_wrport_next_iff {b : Byte} {s t : State} :
    exec (.wrport b) s = .next t ↔ s.cfg.gen = .legacy ∧ t = { s with doPort := b } := by
  constructor
  · exact execWrport_next
  · rintro ⟨hgen, rfl⟩
    exact inGeneration_next_iff.2 ⟨hgen, rfl⟩

/-- Settles O30: the generation picks the raw decoder, whose first byte is the whole command, and lets the row `WRPORT`
run. -/
theorem rawByteBecomesOutputPort : Obligations.RawByteBecomesOutputPort := by
  refine ⟨?decodes, ?writes⟩
  case decodes =>
    intro c b rest hgen
    rw [decode_cmd1_of_legacy hgen, decodeCmd1]
  case writes => exact fun _ _ hgen => exec_wrport_next_iff.2 ⟨hgen, rfl⟩

end Sys2Proof.Machine
end

section
/-! The quadrature decoder's handlers (rules R135 to R140): the one next state of a counted edge, from which both
branches of `ISR_A` follow, and of an index pulse. -/

namespace Sys2Proof.Machine

/-- A handler is blocked by the global mask or by the want of its own event (rule R300). -/
theorem handlerEnabled_eq_false_iff {src : Source} {s : State} :
    handlerEnabled src s = false ↔ s.gie = false ∨ pending src s = false :=
  Bool.and_eq_false_iff

/-- An edge counts exactly when the level of A is the one the armed polarity leads to (rules R136, R137, R139). -/
theorem edgeCount_isSome_iff {arm : Polarity} {a b : Bit} :
    (edgeCount arm a b).isSome ↔ arm = .rising ∧ a = true ∨ arm = .falling ∧ a = false := by
  cases arm <;> cases a <;> simp [edgeCount]

/-- `ISR_A` on an edge that counts (rules R135 to R138): the counters move together and the other polarity is armed. -/
theorem exec_isrA_of_count {s : State} {up : Bit} (hgie : s.gie = true) (hflag : s.ifgA = true)
    (hcount : edgeCount s.arm s.pinA s.pinB = some up) :
    exec .isrA s = .next { countTicks up s with
      arm := s.arm.flip, ifgA := false, wake := s.wake || s.cfg.wakeSet.a } := by
  refine takeInterrupt_next_iff.2 ⟨Bool.and_eq_true_iff.2 ⟨hgie, hflag⟩, ?_⟩
  have hcleared : edgeCount (clearFlag .a s).arm (clearFlag .a s).pinA (clearFlag .a s).pinB = some up := hcount
  rw [decodeEdge_of_count hcleared]
  rfl

/-- `ISR_Z` where it is enabled (rule R140). -/
theorem exec_isrZ_of_pending {s : State} (hgie : s.gie = true) (hflag : s.ifgZ = true) :
    exec .isrZ s = .next { s with wt := 0, ifgZ := false, wake := s.wake || s.cfg.wakeSet.z } :=
  takeInterrupt_next_iff.2 ⟨Bool.and_eq_true_iff.2 ⟨hgie, hflag⟩, rfl⟩

/-- One count from zero leaves the wrapped ticks at 1 or at -1, for every width (rule R138). -/
theorem countTicks_wt_of_zero {up : Bit} {s : State} (hwt : s.wt = 0) :
    (countTicks up s).wt = 1 ∨ (countTicks up s).wt = -1 := by
  cases up
  case false => exact .inr (show s.wt - 1 = -1 by rw [hwt, zero_sub])
  case true => exact .inl (show s.wt + 1 = 1 by rw [hwt, zero_add])

/-- Settles O5: a rise with A high counts up exactly when B is low. -/
theorem risingEdgeCounts : Obligations.RisingEdgeCounts := by
  intro s hgie hflag harm hpin
  have hcount : edgeCount s.arm s.pinA s.pinB = some (!s.pinB) := by rw [harm, hpin]; rfl
  simpa [countTicks, harm, Polarity.flip] using exec_isrA_of_count hgie hflag hcount

/-- Settles O6: a fall with A low counts up exactly when B is high. -/
theorem fallingEdgeCounts : Obligations.FallingEdgeCounts := by
  intro s hgie hflag harm hpin
  have hcount : edgeCount s.arm s.pinA s.pinB = some s.pinB := by rw [harm, hpin]; rfl
  simpa [countTicks, harm, Polarity.flip] using exec_isrA_of_count hgie hflag hcount

/-- Settles O8: neither handler writes what enables the other or decides the count, so each takes the same step on
either side of the other, and ticks that are zeroed first end one count from zero. -/
theorem indexZeroesWrappedTicks : Obligations.IndexZeroesWrappedTicks := by
  refine ⟨?pending, ?disabled, ?order⟩
  case pending => exact fun _ => exec_isrZ_of_pending
  case disabled => exact fun _ h => takeInterrupt_of_disabled (handlerEnabled_eq_false_iff.2 h)
  case order =>
    intro s hgie hflagA hflagZ hedge
    obtain ⟨up, hcount⟩ := Option.isSome_iff_exists.1 (edgeCount_isSome_iff.2 hedge)
    exact ⟨_, _, _, _,
      exec_isrA_of_count hgie hflagA hcount, exec_isrZ_of_pending hgie hflagZ,
      exec_isrZ_of_pending hgie hflagZ, exec_isrA_of_count hgie hflagA hcount,
      rfl, countTicks_wt_of_zero rfl, rfl⟩

end Sys2Proof.Machine
end

section
/-! The clock extension (rules R151, R152 and R155): the count from which a tick wraps the counter, the operations that
write the overflow flag, and the one next state of its handler. -/

namespace Sys2Proof.Machine

/-! ## The wrap -/

/-- The counter wraps from the number `2^CNT_W - 1` and from no other (rule R152). -/
theorem add_one_eq_zero_iff_toNat {w : Nat} (x : BitVec w) : x + 1 = 0 ↔ x.toNat = 2 ^ w - 1 := by
  rw [add_one_eq_zero_iff, ← BitVec.toNat_inj, BitVec.toNat_allOnes]

/-- `TICK` raises the overflow flag exactly when it wraps the counter, and never clears it (rules R151 and R152). -/
theorem execTick_ifgOvf_iff {s t : State} (h : execTick s = .next t) :
    t.ifgOvf = true ↔ s.ifgOvf = true ∨ s.low.toNat = 2 ^ s.cfg.cntW - 1 := by
  rw [execTick_next h, ← add_one_eq_zero_iff_toNat]
  exact Bool.or_eq_true_iff.trans (or_congr_right beq_iff_eq)

/-- After a tick from its maximum value the counter stands at 0 (rule R152). -/
theorem execTick_low_of_max {s t : State} (h : execTick s = .next t) (hmax : s.low.toNat = 2 ^ s.cfg.cntW - 1) :
    t.low = 0 := by
  rw [execTick_next h]
  exact (add_one_eq_zero_iff_toNat s.low).2 hmax

/-! ## The writers of the overflow flag -/

/-- Only the tick, the flag's own handler and the boot write `ifg_ovf` (rule R46). -/
theorem exec_ifgOvf_frame {i : Instr} {s t : State} (h : exec i s = .next t) (htick : i ≠ .tick)
    (hisr : i ≠ .isrOvf) (hboot : i ≠ .boot) : t.ifgOvf = s.ifgOvf := by
  cases i
  case tick => exact absurd rfl htick
  case pin => rw [execPin_next h]
  case rxb => rw [execRxb_next h]
  case txrdy => rw [execTxrdy_next h]
  case din => obtain ⟨-, _, _, _, rfl⟩ := execDin_next h; rfl
  case isrA => obtain ⟨-, _, _, _, -, rfl⟩ := execIsrA_next h; rfl
  case isrZ => rw [(execIsrZ_next h).2]
  case isrOvf => exact absurd rfl hisr
  case isrCmp => rw [(execIsrCmp_next h).2]
  case isrRx => obtain ⟨-, _, _, _, _, _, _, -, -, rfl⟩ := execIsrRx_next h; rfl
  case boot => exact absurd rfl hboot
  case sleep => rw [(execSleep_next h).2.2]
  case mbTake => obtain ⟨-, _, _, _, _, _, -, rfl⟩ := execMbTake_frame h; rfl
  case mbClear => rw [(execMbClear_next h).2]
  case dint => rw [(execDint_next h).2]
  case snap => rw [(execSnap_next h).2.2]
  case snapLegacy => rw [(execSnapLegacy_next h).2.2]
  case eint => rw [(execEint_next h).2]
  case txb => obtain ⟨-, -, -, _, -, rfl⟩ := execTxb_next h; rfl
  case cfgd => rw [(execCfgd_next h).2]
  case cfga => rw [(execCfga_next h).2]
  case wrd => rw [(execWrd_next h).2]
  case wrdm => rw [(execWrdm_next h).2]
  case wra => rw [(execWra_next h).2]
  case wrport => rw [(execWrport_next h).2]
  case frame17 => rw [(execFrame17_next h).2]
  case frame14 => rw [(execFrame14_next h).2]
  case frameDecode => rw [execFrameDecode_next h]

/-- Of the three writers the handler and the boot only clear the flag, so what sets it is a tick (rule R152). -/
theorem eq_tick_of_sets_ifgOvf {i : Instr} {s t : State} (h : exec i s = .next t) (hclear : s.ifgOvf = false)
    (hset : t.ifgOvf = true) : i = .tick := by
  by_contra htick
  have hisr : i ≠ .isrOvf := by
    rintro rfl
    rw [(execIsrOvf_next h).2] at hset
    cases hset
  have hboot : i ≠ .boot := by
    rintro rfl
    rw [(execBoot_next h).2] at hset
    cases hset
  rw [exec_ifgOvf_frame h htick hisr hboot, hclear] at hset
  cases hset

/-- Settles O3: the tick's flag and count are both read off the wrap, and no other operation sets the flag. -/
theorem overflowFlagOnlyFromWrap : Obligations.OverflowFlagOnlyFromWrap := by
  refine ⟨?wrapSets, ?onlyWrapSets⟩
  case wrapSets =>
    intro s hmax
    have htick : execTick s = .next _ := rfl
    exact ⟨_, htick, execTick_low_of_max htick hmax, (execTick_ifgOvf_iff htick).2 (.inr hmax)⟩
  case onlyWrapSets =>
    intro i s t h hclear hset
    obtain rfl := eq_tick_of_sets_ifgOvf h hclear hset
    have hmax : s.low.toNat = 2 ^ s.cfg.cntW - 1 :=
      ((execTick_ifgOvf_iff h).1 hset).resolve_left (by rw [hclear]; exact Bool.false_ne_true)
    exact ⟨rfl, hmax, execTick_low_of_max h hmax⟩

/-! ## The overflow handler -/

/-- `ISR_OVF` where it is enabled (rule R155). -/
theorem exec_isrOvf_of_pending {s : State} (hgie : s.gie = true) (hflag : s.ifgOvf = true) :
    exec .isrOvf s = .next { s with high := s.high + 1, ifgOvf := false, wake := s.wake || s.cfg.wakeSet.ovf } :=
  takeInterrupt_next_iff.2 ⟨Bool.and_eq_true_iff.2 ⟨hgie, hflag⟩, rfl⟩

/-- Settles O9: the handler runs where both the mask and its flag allow it, and is refused where either does not. -/
theorem overflowHandlerExtendsClock : Obligations.OverflowHandlerExtendsClock := by
  refine ⟨?pending, ?disabled⟩
  case pending => exact fun _ => exec_isrOvf_of_pending
  case disabled => exact fun _ h => takeInterrupt_of_disabled (handlerEnabled_eq_false_iff.2 h)

end Sys2Proof.Machine
end

section
/-! The received byte (rules R175 and R176): the handler `ISR_RX` where it is enabled, and its one next state in a
`LEGACY` block. -/

namespace Sys2Proof.Machine

/-- `ISR_RX` where it is enabled (rule R175). -/
theorem exec_isrRx_of_pending {s : State} (hgie : s.gie = true) (hflag : s.ifgRx = true) :
    exec .isrRx s = .next (returnFromHandler .rx (receiveByte (clearFlag .rx s))) :=
  takeInterrupt_next_iff.2 ⟨Bool.and_eq_true_iff.2 ⟨hgie, hflag⟩, rfl⟩

/-- Settles O11: clearing the flag on entry keeps the generation and the received byte, so the body posts that byte. -/
theorem legacyReceivePostsRawByte : Obligations.LegacyReceivePostsRawByte := by
  intro s hgen hgie hflag
  have hcleared : (clearFlag .rx s).cfg.gen = .legacy := hgen
  rw [exec_isrRx_of_pending hgie hflag, receiveByte_of_legacy hcleared]
  rfl

end Sys2Proof.Machine
end

section
/-! The critical section (rules R191 and R194): the five handlers as one meaning over their source, the only operations
that clear a pending flag, and the foreground steps `DINT`, `SNAP` and `EINT`. -/

namespace Sys2Proof.Machine

/-! ## A foreground step that only its phase enables -/

/-- In its phase the foreground takes the step (rule R15). -/
theorem foregroundStep_of_phase {p : Phase} {s t : State} (h : s.fg = p) :
    foregroundStep (atPhase p s) (.next t) = .next t :=
  foregroundStep_next_iff.2 ⟨atPhase_iff.2 h, rfl⟩

/-- Out of its phase the foreground has no such step (rule R15). -/
theorem foregroundStep_of_other_phase {p : Phase} {s : State} {o : Host.Outcome State Fault Refusal} (h : s.fg ≠ p) :
    foregroundStep (atPhase p s) o = .refused .notEnabled :=
  if_neg (mt atPhase_iff.1 h)

/-- In either generation `SNAP` leads to `EINT` (rules R192 to R194). -/
theorem exec_snapOf_fg {g : Gen} {s t : State} (h : exec (snapOf g) s = .next t) : t.fg = .eint := by
  cases g
  case current => rw [(execSnap_next h).2.2]
  case legacy => rw [(execSnapLegacy_next h).2.2]

/-! ## The handlers, by source -/

/-- What the handler of a source does between entry and return. -/
def handlerBody : Source → State → State
  | .a => decodeEdge
  | .z => zeroWrappedTicks
  | .ovf => extendClock
  | .cmp => advanceThreshold
  | .rx => receiveByte

/-- Every handler is its body, run as an interrupt of its source (rule R300). -/
theorem exec_handlerOf (src : Source) (s : State) :
    exec (handlerOf src) s = takeInterrupt src (handlerBody src) s := by
  cases src <;> rfl

/-- The registers that the bodies write between them: no pending flag, no frame buffer, no phase (rules R135, R140,
R155, R156 and R175). -/
theorem handlerBody_frame (src : Source) (s : State) :
    ∃ wt ut arm high thr mb mc rd ps op pp, handlerBody src s = { s with
      wt := wt, ut := ut, arm := arm, high := high, thr := thr
      mbByte := mb, mbCommand := mc, mbReady := rd, pstate := ps, pOp := op, pPin := pp } := by
  cases src
  case a =>
    obtain ⟨wt, ut, arm, he, -⟩ := decodeEdge_frame s
    exact ⟨wt, ut, arm, _, _, _, _, _, _, _, _, he⟩
  case z => exact ⟨_, _, _, _, _, _, _, _, _, _, _, rfl⟩
  case ovf => exact ⟨_, _, _, _, _, _, _, _, _, _, _, rfl⟩
  case cmp => exact ⟨_, _, _, _, _, _, _, _, _, _, _, rfl⟩
  case rx =>
    obtain ⟨mb, mc, rd, ps, op, pp, he, -⟩ := receiveByte_frame s
    exact ⟨_, _, _, _, _, mb, mc, rd, ps, op, pp, he⟩

@[simp] theorem handlerBody_buf (src : Source) (s : State) : (handlerBody src s).buf = s.buf := by
  obtain ⟨_, _, _, _, _, _, _, _, _, _, _, he⟩ := handlerBody_frame src s
  rw [he]

@[simp] theorem pending_handlerBody (src src' : Source) (s : State) :
    pending src (handlerBody src' s) = pending src s := by
  obtain ⟨_, _, _, _, _, _, _, _, _, _, _, he⟩ := handlerBody_frame src' s
  rw [he]
  rfl

@[simp] theorem pending_returnFromHandler (src src' : Source) (s : State) :
    pending src (returnFromHandler src' s) = pending src s := rfl

/-- Entry clears the one flag of the handler's own source (rule R345). -/
theorem pending_clearFlag (src src' : Source) (s : State) :
    pending src (clearFlag src' s) = (src' != src && pending src s) := by
  cases src <;> rfl

/-- An enabled handler runs. -/
theorem exec_handlerOf_of_enabled {src : Source} {s : State} (h : handlerEnabled src s = true) :
    exec (handlerOf src) s = .next (returnFromHandler src (handlerBody src (clearFlag src s))) := by
  rw [exec_handlerOf]
  exact takeInterrupt_next_iff.2 ⟨h, rfl⟩

/-- Under the global mask no handler has a step (rules R191 and R300). -/
theorem exec_handlerOf_of_masked {src : Source} {s : State} (h : s.gie = false) :
    exec (handlerOf src) s = .refused .notEnabled := by
  rw [exec_handlerOf]
  exact takeInterrupt_of_disabled (handlerEnabled_eq_false_iff.2 (.inl h))

/-- A handler's step, from entry to return. -/
theorem exec_handlerOf_next {src : Source} {s t : State} (h : exec (handlerOf src) s = .next t) :
    t = returnFromHandler src (handlerBody src (clearFlag src s)) := by
  rw [exec_handlerOf] at h
  exact (takeInterrupt_next_iff.1 h).2

/-- The frame buffer belongs to the foreground (rule R194). -/
theorem exec_handlerOf_buf {src : Source} {s t : State} (h : exec (handlerOf src) s = .next t) : t.buf = s.buf := by
  rw [exec_handlerOf_next h, returnFromHandler_buf, handlerBody_buf, clearFlag_buf]

/-- A handler leaves the other sources' flags as they are (rule R345). -/
theorem exec_handlerOf_pending {src src' : Source} {s t : State} (h : exec (handlerOf src') s = .next t)
    (hne : src' ≠ src) : pending src t = pending src s := by
  rw [exec_handlerOf_next h, pending_returnFromHandler, pending_handlerBody, pending_clearFlag, bne_iff_ne.2 hne,
    Bool.true_and]

/-! ## The pending flags -/

/-- A state in which no flag is lower than before has lost no pending interrupt. -/
theorem pending_le_of_flags {src : Source} {s t : State} (ha : s.ifgA ≤ t.ifgA) (hz : s.ifgZ ≤ t.ifgZ)
    (hovf : s.ifgOvf ≤ t.ifgOvf) (hcmp : s.ifgCmp ≤ t.ifgCmp) (hrx : s.ifgRx ≤ t.ifgRx) :
    pending src s ≤ pending src t := by
  cases src
  case a => exact ha
  case z => exact hz
  case ovf => exact hovf
  case cmp => exact hcmp
  case rx => exact hrx

/-- Only `BOOT` and a source's own handler clear its pending flag (rules R46 and R345). -/
theorem exec_pending_le {i : Instr} {s t : State} {src : Source} (h : exec i s = .next t) (hboot : i ≠ .boot)
    (hisr : i ≠ handlerOf src) : pending src s ≤ pending src t := by
  have hhandler (src' : Source) (h' : exec (handlerOf src') s = .next t) (hne : handlerOf src' ≠ handlerOf src) :
      pending src s ≤ pending src t :=
    (exec_handlerOf_pending h' (ne_of_apply_ne handlerOf hne)).ge
  cases i
  case tick =>
    rw [execTick_next h]
    exact pending_le_of_flags le_rfl le_rfl (Bool.left_le_or _ _) (Bool.left_le_or _ _) le_rfl
  case pin =>
    rw [execPin_next h]
    exact pending_le_of_flags (Bool.left_le_or _ _) (Bool.left_le_or _ _) le_rfl le_rfl le_rfl
  case rxb =>
    rw [execRxb_next h]
    exact pending_le_of_flags le_rfl le_rfl le_rfl le_rfl (Bool.le_true _)
  case txrdy => rw [execTxrdy_next h]; exact le_rfl
  case din => obtain ⟨-, _, _, _, rfl⟩ := execDin_next h; exact le_rfl
  case isrA => exact hhandler .a h hisr
  case isrZ => exact hhandler .z h hisr
  case isrOvf => exact hhandler .ovf h hisr
  case isrCmp => exact hhandler .cmp h hisr
  case isrRx => exact hhandler .rx h hisr
  case boot => exact absurd rfl hboot
  case sleep => rw [(execSleep_next h).2.2]; exact le_rfl
  case mbTake => obtain ⟨-, _, _, _, _, _, -, rfl⟩ := execMbTake_frame h; exact le_rfl
  case mbClear => rw [(execMbClear_next h).2]; exact le_rfl
  case dint => rw [(execDint_next h).2]; exact le_rfl
  case snap => rw [(execSnap_next h).2.2]; exact le_rfl
  case snapLegacy => rw [(execSnapLegacy_next h).2.2]; exact le_rfl
  case eint => rw [(execEint_next h).2]; exact le_rfl
  case txb => obtain ⟨-, -, -, _, -, rfl⟩ := execTxb_next h; exact le_rfl
  case cfgd => rw [(execCfgd_next h).2]; exact le_rfl
  case cfga => rw [(execCfga_next h).2]; exact le_rfl
  case wrd => rw [(execWrd_next h).2]; exact le_rfl
  case wrdm => rw [(execWrdm_next h).2]; exact le_rfl
  case wra => rw [(execWra_next h).2]; exact le_rfl
  case wrport => rw [(execWrport_next h).2]; exact le_rfl
  case frame17 => rw [(execFrame17_next h).2]; exact le_rfl
  case frame14 => rw [(execFrame14_next h).2]; exact le_rfl
  case frameDecode => rw [execFrameDecode_next h]; exact le_rfl

/-- Under the global mask nothing but `BOOT` clears a pending flag: its handler is the one other operation that could,
and has no step (rule R191). -/
theorem exec_pending_of_masked {i : Instr} {s t : State} {src : Source} (hgie : s.gie = false) (hboot : i ≠ .boot)
    (h : exec i s = .next t) : pending src s ≤ pending src t := by
  refine exec_pending_le h hboot ?_
  rintro rfl
  rw [exec_handlerOf_of_masked hgie] at h
  cases h

/-! ## Leaving the critical section -/

/-- `EINT` keeps every flag and lifts the mask, so each pending handler is enabled after it (rule R194). -/
theorem handlerEnabled_of_exec_eint {src : Source} {s t : State} (h : exec .eint s = .next t)
    (hflag : pending src s = true) : handlerEnabled src t = true := by
  rw [(execEint_next h).2]
  exact hflag

/-- Settles O19: the mask disables all five handlers, and they are what clears a flag, so a flag set under the mask is
still there when `EINT` lifts it. -/
theorem dintMasksHandlers : Obligations.DintMasksHandlers := by
  refine ⟨?masks, ?disabled, ?noHandler, ?flagStays, ?handlerRuns⟩
  case masks => exact fun _ => foregroundStep_of_phase
  case disabled => exact fun _ => foregroundStep_of_other_phase
  case noHandler => exact fun _ _ => exec_handlerOf_of_masked
  case flagStays => exact fun _ _ _ _ => exec_pending_of_masked
  case handlerRuns =>
    intro s src hfg hflag
    have heint : exec .eint s = .next _ := foregroundStep_of_phase hfg
    exact ⟨_, _, heint, exec_handlerOf_of_enabled (handlerEnabled_of_exec_eint heint hflag)⟩

/-- Settles O22: `EINT` lifts the mask over flags it does not touch, and no handler's body reaches the buffer. -/
theorem eintReleasesHandlers : Obligations.EintReleasesHandlers := by
  refine ⟨?releases, ?disabled, ?enabled, ?bufferKept, ?snapExit⟩
  case releases => exact fun _ => foregroundStep_of_phase
  case disabled => exact fun _ => foregroundStep_of_other_phase
  case enabled => exact fun _ _ _ => handlerEnabled_of_exec_eint
  case bufferKept => exact fun _ _ _ => exec_handlerOf_buf
  case snapExit => exact fun _ _ => exec_snapOf_fg

end Sys2Proof.Machine
end

section
/-! The host commands as one family over their selector (rules R100, R261, R268 and R271): which operations they are, their
encoding and effect, and that an out-of-range pin takes the effect away. -/

namespace Sys2Proof

/-- A host command is a selector with its two operand bytes, or a raw byte (rules R100 and R104). -/
theorem Instr.isCommand_cases {i : Instr} (h : i.isCommand = true) :
    (∃ sel p v, i = Selector.command sel p v) ∨ ∃ b, i = .wrport b := by
  cases i
  case cfgd p m => exact .inl ⟨.cfgd, p, m, rfl⟩
  case cfga p m => exact .inl ⟨.cfga, p, m, rfl⟩
  case wrd p v => exact .inl ⟨.wrd, p, v, rfl⟩
  case wrdm p v => exact .inl ⟨.wrdm, p, v, rfl⟩
  case wra p v => exact .inl ⟨.wra, p, v, rfl⟩
  case wrport b => exact .inr ⟨b, rfl⟩
  all_goals exact absurd h Bool.false_ne_true

end Sys2Proof

namespace Sys2Proof.Machine

/-- The row of a structured command has a next state exactly in a `CURRENT` block, and then has the selector's effect. -/
theorem exec_command_next_iff {sel : Selector} {p v : Byte} {s t : State} :
    exec (sel.command p v) s = .next t ↔ s.cfg.gen = .current ∧ t = runSelector sel p v s := by
  constructor
  · intro h
    cases sel
    case cfgd => exact execCfgd_next h
    case cfga => exact execCfga_next h
    case wrd => exact execWrd_next h
    case wrdm => exact execWrdm_next h
    case wra => exact execWra_next h
  · rintro ⟨hgen, rfl⟩
    exact exec_command sel p v s hgen

/-- Settles O31: a structured command's next state is its selector's effect and the raw command's is the output port, and
both write the digital outputs alone. -/
theorem commandsTouchOnlyOutputs : Obligations.CommandsTouchOnlyOutputs := by
  intro i s t hi h
  obtain ⟨sel, p, v, rfl⟩ | ⟨b, rfl⟩ := Instr.isCommand_cases hi
  · obtain ⟨gm, am, go, ao, heffect⟩ := runSelector_frame sel p v s
    rw [(exec_command_next_iff.1 h).2, heffect]
  · rw [(exec_wrport_next_iff.1 h).2]

/-! ## A pin out of range -/

/-- Every effect of `WRDM` on the auxiliary bus is that of a pin, so none is left without one (rule R268). -/
theorem mirror_of_none (e : MirrorEffect) (aux : Vector Bit Config.nPins) {p : Byte} (level : Bit)
    (h : pinIndex p = none) : mirror e aux p level = aux := by
  cases e
  case sameAux => exact setPin_of_none aux level h
  case other => simp only [mirror, h]

/-- A structured command writes only registers of its pin, and an out-of-range byte names none (rule R268). -/
theorem runSelector_of_none (sel : Selector) {p : Byte} (v : Byte) (s : State) (h : pinIndex p = none) :
    runSelector sel p v s = s := by
  cases sel
  case cfgd => rw [runSelector, cmdCfgd, setPin_of_none _ _ h]
  case cfga => rw [runSelector, cmdCfga, setPin_of_none _ _ h]
  case wrd => rw [runSelector, cmdWrd, setPin_of_none _ _ h]
  case wrdm => rw [runSelector, cmdWrdm, setPin_of_none _ _ h, mirror_of_none _ _ _ h]
  case wra => rw [runSelector, cmdWra, setPin_of_none _ _ h]

/-- The row of a structured command with an out-of-range pin keeps the state (rule R268). -/
theorem exec_command_of_out_of_range (sel : Selector) {p : Byte} (v : Byte) {s : State} (hgen : s.cfg.gen = .current)
    (hpin : p = 0 ∨ 13 ≤ p.toNat) : exec (sel.command p v) s = .next s := by
  rw [exec_command sel p v s hgen, runSelector_of_none sel v s (pinIndex_eq_none hpin)]

/-- A mailbox whose pin is out of range is applied without effect, whether or not a selector has its operation byte
(rules R268 and R269). -/
theorem applyMailbox_of_out_of_range {s : State} (hgen : s.cfg.gen = .current)
    (hpin : s.mbCommand.pin = 0 ∨ 13 ≤ s.mbCommand.pin.toNat) : applyMailbox s = s := by
  cases hsel : s.cfg.opsel.select s.mbCommand.op with
  | none => exact applyMailbox_of_unknown hgen hsel
  | some sel =>
    rw [applyMailbox_of_select hgen hsel, runSelector_of_none sel _ s (pinIndex_eq_none hpin)]

/-- `MB_TAKE` of a full slot applies the mailbox and goes on to clear it (rule R178). -/
theorem exec_mbTake_of_ready {s : State} (hfg : s.fg = .take) (hready : s.mbReady = true) :
    exec .mbTake s = .next { applyMailbox s with fg := .clear } := by
  rw [exec, execMbTake, if_pos hready, foregroundStep_of_phase hfg]

/-- `MB_CLEAR` in its phase empties the slot (rule R179). -/
theorem exec_mbClear_of_phase {s : State} (hfg : s.fg = .clear) :
    exec .mbClear s = .next { s with mbReady := false, fg := .dint } :=
  foregroundStep_of_phase hfg

/-- The fourth byte of a command posts it, whatever its bytes are and whatever the slot holds (rules R175 and R221). -/
theorem receiveByte_of_awaitValue {s : State} (hgen : s.cfg.gen = .current) (hparser : s.pstate = .awaitValue) :
    receiveByte s = { s with
      pstate := .awaitStart, mbCommand := { op := s.pOp, pin := s.pPin, val := s.rxReg }, mbReady := true } := by
  rw [receiveByte_of_current hgen, hparser]
  rfl

/-- Settles O29: the pin byte matters only to the effect, which needs a pin; the take, the clear and the posting do not
read it. -/
theorem outOfRangePinDoesNothing : Obligations.OutOfRangePinDoesNothing := by
  refine ⟨?noEffect, ?takenAndCleared, ?posted⟩
  case noEffect => exact fun sel _ v _ hgen hpin => exec_command_of_out_of_range sel v hgen hpin
  case takenAndCleared =>
    intro s hgen hfg hready hpin
    have htake : exec .mbTake s = .next { s with fg := .clear } := by
      rw [exec_mbTake_of_ready hfg hready, applyMailbox_of_out_of_range hgen hpin]
    exact ⟨_, htake, exec_mbClear_of_phase rfl, rfl⟩
  case posted =>
    intro s hgen hgie hflag hparser
    have hposts := receiveByte_of_awaitValue (s := clearFlag .rx s) hgen hparser
    rw [exec_isrRx_of_pending hgie hflag, hposts]
    exact ⟨_, rfl, rfl, rfl⟩

/-! ## Writing a pin -/

/-- `WRD` of pin `k + 1` (rule R264). -/
theorem exec_wrd_of_fin (k : Fin 12) (v : Byte) {s : State} (hgen : s.cfg.gen = .current) :
    exec (.wrd (BitVec.ofNat 8 (k + 1)) v) s = .next { s with genOut := s.genOut.set k (lvl v) } := by
  rw [← setPin_of_fin]
  exact exec_command .wrd _ v s hgen

/-- `WRA` of pin `k + 1` (rule R266). -/
theorem exec_wra_of_fin (k : Fin 12) (v : Byte) {s : State} (hgen : s.cfg.gen = .current) :
    exec (.wra (BitVec.ofNat 8 (k + 1)) v) s = .next { s with auxOut := s.auxOut.set k (lvl v) } := by
  rw [← setPin_of_fin]
  exact exec_command .wra _ v s hgen

/-- Settles O26: `WRD 5, 1` is pin `k + 1` for `k = 4`. -/
theorem writeGeneralPin : Obligations.WriteGeneralPin := by
  refine ⟨?encoding, ?outOfRange, ?inRange, ?wrd_5_1⟩
  case encoding => exact fun _ _ _ => rfl
  case outOfRange => exact fun _ v _ hgen hpin => exec_command_of_out_of_range .wrd v hgen hpin
  case inRange => exact fun k v _ hgen => exec_wrd_of_fin k v hgen
  case wrd_5_1 => exact fun _ hgen => exec_wrd_of_fin 4 1 hgen

/-- Settles O28: `WRA 1, 0` is pin `k + 1` for `k = 0`. -/
theorem writeAuxiliaryPin : Obligations.WriteAuxiliaryPin := by
  refine ⟨?encoding, ?outOfRange, ?inRange, ?wra_1_0⟩
  case encoding => exact fun _ _ _ => rfl
  case outOfRange => exact fun _ v _ hgen hpin => exec_command_of_out_of_range .wra v hgen hpin
  case inRange => exact fun k v _ hgen => exec_wra_of_fin k v hgen
  case wra_1_0 => exact fun _ hgen => exec_wra_of_fin 0 0 hgen

end Sys2Proof.Machine
end

section
/-! The pending flag of a handler's own source (rule R345): cleared at entry and set again by nothing before the return. -/

namespace Sys2Proof.Machine

/-- A handler's own flag is low when it returns: entry clears it, and neither body nor return writes a flag (rule
R345). -/
theorem exec_handlerOf_pending_self {src : Source} {s t : State} (h : exec (handlerOf src) s = .next t) :
    pending src t = false := by
  rw [exec_handlerOf_next h, pending_returnFromHandler, pending_handlerBody, pending_clearFlag, bne_self_eq_false,
    Bool.false_and]

/-- Settles O13: entry clears the one flag of the handler's source, and every branch of the body keeps all five. -/
theorem handlersClearTheirFlag : Obligations.HandlersClearTheirFlag := by
  intro src s henabled
  have hstep := exec_handlerOf_of_enabled henabled
  exact ⟨_, hstep, exec_handlerOf_pending_self hstep, fun _ hne => exec_handlerOf_pending hstep hne.symm⟩

end Sys2Proof.Machine
end

section
/-! The frame layouts read back (rules R110, R111, R112 and R230): the bytes at each field's offsets, the constant
bytes, and the two directions between a record of the generation and the bytes of its frame. -/

namespace Sys2Proof

/-! ## The bytes at each offset -/

/-- Where the fields of a `FRAME17` stand (rule R110). -/
theorem frame17Bytes_fields (e : Endian) (clk : Word32) (wt : Word16) (ut : Word32) (gen aux : Word16) :
    ((frame17Bytes e clk wt ut gen aux).drop 2).take 4 = fieldBytes e 4 clk ∧
    ((frame17Bytes e clk wt ut gen aux).drop 6).take 2 = fieldBytes e 2 wt ∧
    ((frame17Bytes e clk wt ut gen aux).drop 8).take 4 = fieldBytes e 4 ut ∧
    ((frame17Bytes e clk wt ut gen aux).drop 12).take 2 = fieldBytes e 2 gen ∧
    ((frame17Bytes e clk wt ut gen aux).drop 14).take 2 = fieldBytes e 2 aux := by
  simp [frame17Bytes, List.drop_append, List.drop_of_length_le]

/-- Where the fields of a `FRAME14` stand (rule R111). -/
theorem frame14Bytes_fields (e : Endian) (low high wt : Word16) (ut : Word32) (port : Byte) :
    ((frame14Bytes e low high wt ut port).drop 2).take 2 = fieldBytes e 2 low ∧
    ((frame14Bytes e low high wt ut port).drop 4).take 2 = fieldBytes e 2 high ∧
    ((frame14Bytes e low high wt ut port).drop 6).take 2 = fieldBytes e 2 wt ∧
    ((frame14Bytes e low high wt ut port).drop 8).take 4 = fieldBytes e 4 ut ∧
    ((frame14Bytes e low high wt ut port).drop 12).take 1 = fieldBytes e 1 port := by
  simp [frame14Bytes, List.drop_append, List.drop_of_length_le]

/-- The constant bytes of a `FRAME17` stand in their places (rules R113 and R121). -/
theorem frameMarked_frame17Bytes (e : Endian) (clk : Word32) (wt : Word16) (ut : Word32) (gen aux : Word16) :
    frameMarked .current (frame17Bytes e clk wt ut gen aux) = true := by
  simp [frameMarked, Gen.frameLen, frame17Bytes]

/-- The constant bytes of a `FRAME14` stand in their places (rules R113 and R121). -/
theorem frameMarked_frame14Bytes (e : Endian) (low high wt : Word16) (ut : Word32) (port : Byte) :
    frameMarked .legacy (frame14Bytes e low high wt ut port) = true := by
  simp [frameMarked, Gen.frameLen, frame14Bytes]

/-! ## From a record to its frame and back -/

/-- A record that fits a generation has that generation's digital-input fields (rule R44). -/
theorem FrameRecord.fits_current {r : FrameRecord} (h : r.fits .current = true) :
    ∃ gen aux, r.di = .current gen aux := by
  cases hdi : r.di
  case current gen aux => exact ⟨gen, aux, rfl⟩
  case legacy => rw [FrameRecord.fits, hdi] at h; cases h

theorem FrameRecord.fits_legacy {r : FrameRecord} (h : r.fits .legacy = true) : ∃ port, r.di = .legacy port := by
  cases hdi : r.di
  case current => rw [FrameRecord.fits, hdi] at h; cases h
  case legacy port => exact ⟨port, rfl⟩

/-- A frame of the generation has its constant bytes right, in whichever byte order its fields are laid (rule R232). -/
theorem frameMarked_frameBytes (e : Endian) {r : FrameRecord} {g : Gen} (h : r.fits g = true) :
    frameMarked g (frameBytes e r) = true := by
  cases g
  case current =>
    obtain ⟨gen, aux, hdi⟩ := FrameRecord.fits_current h
    simp only [frameBytes, hdi, frameMarked_frame17Bytes]
  case legacy =>
    obtain ⟨port, hdi⟩ := FrameRecord.fits_legacy h
    simp only [frameBytes, hdi, frameMarked_frame14Bytes]

/-- `FRAME_DECODE` accepts every frame of the generation (rule R230). -/
theorem frameDecode_frameBytes (c : Cfg) (e : Endian) {r : FrameRecord} (h : r.fits c.gen = true) :
    frameDecode c (frameBytes e r) = some (frameFields c.endian (frameBytes e r) c.gen) :=
  if_pos (frameMarked_frameBytes e h)

/-- The two halves of a clock field (rule R116). -/
theorem extractLsb'_halves (high low : Word16) :
    (high ++ low : Word32).extractLsb' 0 16 = low ∧ (high ++ low : Word32).extractLsb' 16 16 = high :=
  ⟨by simpa using BitVec.extractLsb'_append_eq_right (a := high) (b := low),
   by simpa using BitVec.extractLsb'_append_eq_left (a := high) (b := low)⟩

/-- Reading a frame's fields in the byte order they were laid in gives the record back (rules R230 and R232). -/
theorem frameFields_frameBytes (e : Endian) {r : FrameRecord} {g : Gen} (h : r.fits g = true) :
    frameFields e (frameBytes e r) g = r := by
  obtain ⟨low, high, wt, ut, di⟩ := r
  cases g
  case current =>
    obtain ⟨gen, aux, rfl⟩ := FrameRecord.fits_current h
    obtain ⟨hclk, hwt, hut, hgen, haux⟩ := frame17Bytes_fields e (high ++ low) wt ut gen aux
    obtain ⟨hlow, hhigh⟩ := extractLsb'_halves high low
    simp [frameFields, frameBytes, fieldAt, hclk, hwt, hut, hgen, haux, joinBytes_fieldBytes, hlow, hhigh]
  case legacy =>
    obtain ⟨port, rfl⟩ := FrameRecord.fits_legacy h
    obtain ⟨hlow, hhigh, hwt, hut, hport⟩ := frame14Bytes_fields e low high wt ut port
    simp [frameFields, frameBytes, fieldAt, hlow, hhigh, hwt, hut, hport, joinBytes_fieldBytes]

/-- `FRAME_DECODE` inverts the layout (rules R230 and R232). -/
theorem frameDecode_of_frameBytes (c : Cfg) {r : FrameRecord} (h : r.fits c.gen = true) :
    frameDecode c (frameBytes c.endian r) = some r := by
  rw [frameDecode_frameBytes c c.endian h, frameFields_frameBytes c.endian h]

/-! ## From a frame to its record and back -/

/-- The fields read from a byte sequence have the shape of the generation. -/
theorem frameFields_fits (e : Endian) (f : List Byte) (g : Gen) : (frameFields e f g).fits g = true := by
  cases g <;> rfl

theorem frameMarked_iff {g : Gen} {f : List Byte} :
    frameMarked g f = true ↔
      f.length = g.frameLen ∧ f[0]? = some Config.txStart ∧ f[1]? = some (lengthByte g) ∧
        f[g.frameLen - 1]? = some Config.txEnd := by
  have hpos : 1 < g.frameLen := by cases g <;> decide
  simp only [frameMarked, Bool.and_eq_true, beq_iff_eq, and_assoc]
  refine and_congr_right fun hlen => ?_
  rw [List.getD_eq_getElem _ _ (by omega), List.getD_eq_getElem _ _ (by omega), List.getD_eq_getElem _ _ (by omega)]
  simp only [List.getElem?_eq_getElem (show 0 < f.length by omega),
    List.getElem?_eq_getElem (show 1 < f.length by omega),
    List.getElem?_eq_getElem (show g.frameLen - 1 < f.length by omega), Option.some.injEq]

/-- A field written back where it was read leaves the bytes that stood there. -/
theorem fieldBytes_fieldAt (e : Endian) (f : List Byte) {a n : Nat} (h : a + n ≤ f.length) :
    fieldBytes e n (fieldAt e f a n (8 * n)) = (f.drop a).take n :=
  fieldBytes_joinBytes e (8 * n) n _ (by simp; omega) le_rfl

/-- Cutting a field off the bytes from its offset on leaves the bytes from the next offset on. -/
theorem take_drop_append_drop (f : List Byte) (a n : Nat) : (f.drop a).take n ++ f.drop (a + n) = f.drop a := by
  rw [← List.drop_drop, List.take_append_drop]

/-- The clock field is its two halves (rule R116). -/
theorem append_halves (clk : Word32) : (clk.extractLsb' 16 16 ++ clk.extractLsb' 0 16 : Word32) = clk :=
  (BitVec.extractLsb'_append_extractLsb'_eq_extractLsb' (x := clk) rfl).trans (by simp)

/-- A byte sequence with the constant bytes of a frame is the frame of the fields read from it (rule R230). -/
theorem frameBytes_frameFields (e : Endian) {f : List Byte} {g : Gen} (h : frameMarked g f = true) :
    frameBytes e (frameFields e f g) = f := by
  obtain ⟨hlen, hstart, hlength, hend⟩ := frameMarked_iff.1 h
  have hhead : [Config.txStart, lengthByte g] = f.take 2 := by
    simp [List.take_add_one, hstart, hlength]
  have hlast : [Config.txEnd] = f.drop (g.frameLen - 1) := by
    have hpos : 0 < g.frameLen := by cases g <;> decide
    obtain ⟨hlt, hget⟩ := List.getElem?_eq_some_iff.1 hend
    rw [List.drop_eq_getElem_cons hlt, hget, List.drop_of_length_le (by omega)]
  cases g
  case current =>
    have hfield {a n : Nat} (hle : a + n ≤ 17) := fieldBytes_fieldAt e f (a := a) (n := n) (hle.trans_eq hlen.symm)
    simp only [frameBytes, frameFields, frame17Bytes, append_halves, List.append_assoc]
    rw [hhead, hlast, hfield (a := 2) (n := 4) (by decide), hfield (a := 6) (n := 2) (by decide),
      hfield (a := 8) (n := 4) (by decide), hfield (a := 12) (n := 2) (by decide),
      hfield (a := 14) (n := 2) (by decide)]
    rw [Gen.frameLen, take_drop_append_drop f 14 2, take_drop_append_drop f 12 2, take_drop_append_drop f 8 4,
      take_drop_append_drop f 6 2, take_drop_append_drop f 2 4, List.take_append_drop]
  case legacy =>
    have hfield {a n : Nat} (hle : a + n ≤ 14) := fieldBytes_fieldAt e f (a := a) (n := n) (hle.trans_eq hlen.symm)
    simp only [frameBytes, frameFields, frame14Bytes, List.append_assoc]
    rw [hhead, hlast, hfield (a := 2) (n := 2) (by decide), hfield (a := 4) (n := 2) (by decide),
      hfield (a := 6) (n := 2) (by decide), hfield (a := 8) (n := 4) (by decide),
      hfield (a := 12) (n := 1) (by decide)]
    rw [Gen.frameLen, take_drop_append_drop f 12 1, take_drop_append_drop f 8 4, take_drop_append_drop f 6 2,
      take_drop_append_drop f 4 2, take_drop_append_drop f 2 2, List.take_append_drop]

/-! ## The other byte order -/

/-- The bytes of two values laid side by side, the right one of whole bytes (rule R10). -/
theorem byteOf_append {w m : Nat} (x : BitVec w) (y : BitVec (8 * m)) (k : Nat) :
    byteOf (x ++ y) k = if k < m then byteOf y k else byteOf x (k - m) := by
  split
  case isTrue hk =>
    ext i hi
    simp only [byteOf, BitVec.getElem_extractLsb', BitVec.getLsbD_append]
    rw [if_pos (by omega)]
  case isFalse hk =>
    ext i hi
    simp only [byteOf, BitVec.getElem_extractLsb', BitVec.getLsbD_append]
    rw [if_neg (by omega), Nat.mul_sub, Nat.sub_add_comm (by omega)]

theorem byteOf_byte (b : Byte) : byteOf b 0 = b := BitVec.extractLsb'_eq_self

/-- The bytes of a clock field are those of its halves (rule R116). -/
theorem byteOf_clock (high low : Word16) (k : Nat) :
    byteOf (high ++ low : Word32) k = if k < 2 then byteOf low k else byteOf high (k - 2) :=
  byteOf_append (m := 2) high low k

/-- The other byte order lays a field's bytes in reverse (rule R112). -/
theorem fieldBytes_of_ne {e e' : Endian} (h : e' ≠ e) (n : Nat) {w : Nat} (v : BitVec w) :
    fieldBytes e' n v = (fieldBytes e n v).reverse := by
  cases e <;> cases e'
  case le.le => exact absurd rfl h
  case be.be => exact absurd rfl h
  case le.be => rfl
  case be.le => exact (List.reverse_reverse _).symm

end Sys2Proof

namespace Sys2Proof.Machine

theorem swap16_eq_append (v : Word16) : swap16 v = byteOf v 0 ++ byteOf v 1 := rfl

theorem swap32_eq_append (v : Word32) : swap32 v = byteOf v 0 ++ byteOf v 1 ++ byteOf v 2 ++ byteOf v 3 := rfl

theorem fieldBytes_swap16 (e : Endian) (v : Word16) : fieldBytes e 2 (swap16 v) = (fieldBytes e 2 v).reverse := by
  cases e <;> simp [fieldBytes, List.range_succ, swap16_eq_append, byteOf_append (m := 1), byteOf_byte]

theorem fieldBytes_swap32 (e : Endian) (v : Word32) : fieldBytes e 4 (swap32 v) = (fieldBytes e 4 v).reverse := by
  cases e <;> simp [fieldBytes, List.range_succ, swap32_eq_append, byteOf_append (m := 1), byteOf_byte]

/-- Reversing the clock field exchanges its halves and reverses each (rule R232). -/
theorem swap32_append (high low : Word16) : swap32 (high ++ low) = swap16 low ++ swap16 high := by
  simp only [swap32_eq_append, swap16_eq_append, byteOf_clock]
  exact BitVec.append_assoc (x₁ := byteOf low 0 ++ byteOf low 1) (x₂ := byteOf high 0) (x₃ := byteOf high 1)

/-- A 2-byte field read in the wrong byte order (rule R232). -/
theorem joinBytes_fieldBytes_of_ne16 {e e' : Endian} (h : e' ≠ e) (v : Word16) :
    joinBytes e 16 (fieldBytes e' 2 v) = swap16 v := by
  rw [fieldBytes_of_ne h, ← fieldBytes_swap16, joinBytes_fieldBytes e 2 16 _ (by decide)]

/-- A 4-byte field read in the wrong byte order (rule R232). -/
theorem joinBytes_fieldBytes_of_ne32 {e e' : Endian} (h : e' ≠ e) (v : Word32) :
    joinBytes e 32 (fieldBytes e' 4 v) = swap32 v := by
  rw [fieldBytes_of_ne h, ← fieldBytes_swap32, joinBytes_fieldBytes e 4 32 _ (by decide)]

/-- A 1-byte field has no byte order (rule R112). -/
theorem fieldBytes_byte (e : Endian) (b : Byte) : fieldBytes e 1 b = [b] := by
  cases e <;> simp [fieldBytes, byteOf_byte]

/-- A frame read in the wrong byte order has each multi-byte field reversed (rule R232). -/
theorem frameFields_frameBytes_of_ne {e e' : Endian} (hne : e' ≠ e) {r : FrameRecord} {g : Gen}
    (h : r.fits g = true) : frameFields e (frameBytes e' r) g = swapRecord r := by
  obtain ⟨low, high, wt, ut, di⟩ := r
  cases g
  case current =>
    obtain ⟨gen, aux, rfl⟩ := FrameRecord.fits_current h
    obtain ⟨hclk, hwt, hut, hgen, haux⟩ := frame17Bytes_fields e' (high ++ low) wt ut gen aux
    obtain ⟨hlow, hhigh⟩ := extractLsb'_halves (swap16 low) (swap16 high)
    simp only [frameFields, frameBytes, fieldAt, hclk, hwt, hut, hgen, haux, joinBytes_fieldBytes_of_ne16 hne,
      joinBytes_fieldBytes_of_ne32 hne, swap32_append, hlow, hhigh, swapRecord, swapDigitalIn]
  case legacy =>
    obtain ⟨port, rfl⟩ := FrameRecord.fits_legacy h
    obtain ⟨hlow, hhigh, hwt, hut, hport⟩ := frame14Bytes_fields e' low high wt ut port
    have hportRead : joinBytes e 8 (fieldBytes e' 1 port) = port := by
      rw [fieldBytes_byte e', ← fieldBytes_byte e, joinBytes_fieldBytes e 1 8 port le_rfl]
    simp only [frameFields, frameBytes, fieldAt, hlow, hhigh, hwt, hut, hport, joinBytes_fieldBytes_of_ne16 hne,
      joinBytes_fieldBytes_of_ne32 hne, hportRead, swapRecord, swapDigitalIn]

/-- Settles O40: the constant bytes are the same in both byte orders, and a field's bytes reversed are those of the
reversed value. -/
theorem wrongByteOrderReversesFields : Obligations.WrongByteOrderReversesFields := by
  intro c e r hfits hne
  rw [frameDecode_frameBytes c e hfits, frameFields_frameBytes_of_ne hne hfits]

/-- Settles O41: the clock field's bytes stand from offset 2 in both layouts, and the low half's come first exactly with
`LE`. -/
theorem clockBytesOfBothLayouts : Obligations.ClockBytesOfBothLayouts := by
  intro low high wt ut gen aux port
  have hclkLE : fieldBytes .le 4 (high ++ low) = fieldBytes .le 2 low ++ fieldBytes .le 2 high := by
    simp [fieldBytes, List.range_succ, byteOf_clock]
  have hclkBE : fieldBytes .be 4 (high ++ low) = fieldBytes .be 2 high ++ fieldBytes .be 2 low := by
    simp [fieldBytes, List.range_succ, byteOf_clock]
  have hlegacy (e : Endian) :
      ((frame14Bytes e low high wt ut port).drop 2).take 4 = fieldBytes e 2 low ++ fieldBytes e 2 high := by
    simp [frame14Bytes, List.take_append]
  refine ⟨?currentLE, hlegacy .le, ?currentBE, hlegacy .be⟩
  case currentLE => rw [(frame17Bytes_fields .le _ wt ut gen aux).1, hclkLE]
  case currentBE => rw [(frame17Bytes_fields .be _ wt ut gen aux).1, hclkBE]

end Sys2Proof.Machine
end

section
/-! Decoding and encoding (rules R100 to R104, R118 and R230): each format's decoder as the inverse of its layout. -/

namespace Sys2Proof

/-- The encoding of a structured command is its four bytes, whatever its selector (rule R100). -/
theorem encode_command (c : Cfg) (sel : Selector) (p v : Byte) :
    encode c (sel.command p v) = [Config.cmdStart, c.opsel.code sel, p, v] := by
  cases sel <;> rfl

theorem Selector.command_format (sel : Selector) (p v : Byte) : (sel.command p v).format = .cmd4 := by
  cases sel <;> rfl

/-- A structured command exists in a `CURRENT` block and in no other (rule R118). -/
theorem Selector.command_wf (c : Cfg) (sel : Selector) (p v : Byte) :
    (sel.command p v).wf c = (c.gen == .current) := by
  cases sel <;> rfl

/-- The row of a record's frame encodes to the frame (rules R110 and R111). -/
theorem encode_toInstr (c : Cfg) (r : FrameRecord) : encode c r.toInstr = frameBytes c.endian r := by
  obtain ⟨low, high, wt, ut, di⟩ := r
  cases di <;> rfl

theorem FrameRecord.toInstr_wf (c : Cfg) (r : FrameRecord) : r.toInstr.wf c = r.fits c.gen := by
  obtain ⟨low, high, wt, ut, di⟩ := r
  cases di <;> cases hgen : c.gen <;> simp [FrameRecord.toInstr, Instr.wf, FrameRecord.fits, DigitalIn.fits, hgen]

theorem FrameRecord.toInstr_format_current {r : FrameRecord} (h : r.fits .current = true) :
    r.toInstr.format = .frame17 := by
  obtain ⟨gen, aux, hdi⟩ := FrameRecord.fits_current h
  rw [FrameRecord.toInstr, hdi]
  rfl

theorem FrameRecord.toInstr_format_legacy {r : FrameRecord} (h : r.fits .legacy = true) :
    r.toInstr.format = .frame14 := by
  obtain ⟨port, hdi⟩ := FrameRecord.fits_legacy h
  rw [FrameRecord.toInstr, hdi]
  rfl

/-! ## Decoding an encoding -/

/-- With an injective `OPSEL` the four bytes of a command decode to it (rules R100 and R101). -/
theorem decodeCmd4_encode {c : Cfg} (hc : c.wf = true) (sel : Selector) (p v : Byte) (rest : List Byte) :
    decodeCmd4 c (encode c (sel.command p v) ++ rest) = .ok (sel.command p v, rest) := by
  simp [encode_command, decodeCmd4, Machine.select_code hc sel]

/-- A frame of the generation decodes to its row, whatever follows it (rule R230). -/
theorem decodeFrame_frameBytes (c : Cfg) {r : FrameRecord} (h : r.fits c.gen = true) (rest : List Byte) :
    decodeFrame c (frameBytes c.endian r ++ rest) = .ok (r.toInstr, rest) := by
  have hlen : (frameBytes c.endian r).length = c.frameLen := frameBytes_length c.endian r c.gen h
  rw [decodeFrame, if_neg (by simp [hlen]), List.take_left' hlen, List.drop_left' hlen, frameDecode_of_frameBytes c h]

/-- Settles O44: each format's decoder gives back what the layout of that format laid down; the formats of the other
generation have no well-formed operation. -/
theorem decodeOfEncode : Obligations.DecodeOfEncode := by
  intro c i rest hc hwf hfmt
  have hcommand (sel : Selector) (p v : Byte) (h : (sel.command p v).wf c = true) :
      decode c .cmd4 (encode c (sel.command p v) ++ rest) = .ok (sel.command p v, rest) := by
    rw [Selector.command_wf, beq_iff_eq] at h
    simp only [decode, h, decodeCmd4_encode hc]
  cases i
  case cfgd p m => exact hcommand .cfgd p m hwf
  case cfga p m => exact hcommand .cfga p m hwf
  case wrd p v => exact hcommand .wrd p v hwf
  case wrdm p v => exact hcommand .wrdm p v hwf
  case wra p v => exact hcommand .wra p v hwf
  case wrport b =>
    have hgen : c.gen = .legacy := beq_iff_eq.1 hwf
    simp only [Instr.format, decode, hgen, encode, List.singleton_append, decodeCmd1]
  case frame17 low high wt ut gen aux =>
    have hgen : c.gen = .current := beq_iff_eq.1 hwf
    simp only [Instr.format, decode, hgen]
    exact decodeFrame_frameBytes c (r := ⟨low, high, wt, ut, .current gen aux⟩) (by rw [hgen]; rfl) rest
  case frame14 low high wt ut port =>
    have hgen : c.gen = .legacy := beq_iff_eq.1 hwf
    simp only [Instr.format, decode, hgen]
    exact decodeFrame_frameBytes c (r := ⟨low, high, wt, ut, .legacy port⟩) (by rw [hgen]; rfl) rest
  all_goals exact absurd rfl hfmt

/-! ## Encoding what was decoded -/

/-- What the structured decoder accepts is the encoding of a selector's command (rules R100 and R119). -/
theorem decodeCmd4_ok {c : Cfg} {bs rest : List Byte} {i : Instr} (h : decodeCmd4 c bs = .ok (i, rest)) :
    ∃ sel p v, i = Selector.command sel p v ∧ encode c i ++ rest = bs := by
  unfold decodeCmd4 at h
  split at h
  case h_2 => cases h
  case h_1 start op pin val rest' =>
    split at h
    case isFalse => cases h
    case isTrue hstart =>
      split at h
      case h_2 => cases h
      case h_1 sel hsel =>
        cases h
        refine ⟨sel, pin, val, rfl, ?_⟩
        rw [encode_command, hstart, Machine.select_eq_some hsel]
        rfl

/-- What the frame decoder accepts is the frame of a record of the generation (rules R121 and R230). -/
theorem decodeFrame_ok {c : Cfg} {bs rest : List Byte} {i : Instr} (h : decodeFrame c bs = .ok (i, rest)) :
    ∃ r : FrameRecord, r.fits c.gen = true ∧ i = r.toInstr ∧ encode c i ++ rest = bs := by
  unfold decodeFrame at h
  split at h
  · cases h
  · split at h
    · rename_i r hr
      cases h
      obtain ⟨hmarked, hfields⟩ := Option.ite_none_right_eq_some.1 hr
      obtain rfl := Option.some.inj hfields
      refine ⟨_, frameFields_fits _ _ _, rfl, ?_⟩
      rw [encode_toInstr, frameBytes_frameFields c.endian hmarked, List.take_append_drop]
    · cases h

/-- Settles O45: each decoder accepts only what the layout of its format lays down. -/
theorem encodeOfDecode : Obligations.EncodeOfDecode := by
  intro c fmt bs rest i h
  cases fmt <;> cases hgen : c.gen <;> simp only [decode, hgen] at h
  case cmd4.current =>
    obtain ⟨sel, p, v, rfl, hbytes⟩ := decodeCmd4_ok h
    exact ⟨hbytes, sel.command_format p v, by rw [Selector.command_wf, hgen]; rfl⟩
  case cmd1.legacy =>
    cases bs with
    | nil => cases h
    | cons b bs => cases h; exact ⟨rfl, rfl, by rw [Instr.wf, hgen]; rfl⟩
  case frame17.current =>
    obtain ⟨r, hfits, rfl, hbytes⟩ := decodeFrame_ok h
    exact ⟨hbytes, r.toInstr_format_current (hgen ▸ hfits), by rw [FrameRecord.toInstr_wf, hfits]⟩
  case frame14.legacy =>
    obtain ⟨r, hfits, rfl, hbytes⟩ := decodeFrame_ok h
    exact ⟨hbytes, r.toInstr_format_legacy (hgen ▸ hfits), by rw [FrameRecord.toInstr_wf, hfits]⟩
  all_goals cases h

end Sys2Proof
end

section
/-! The frame in the buffer (rules R110, R111, R192, R193 and R200): one layout over the record it carries, which the
rows `FRAME17` and `FRAME14` and the `SNAP` of either generation share, and what is read of it. -/

namespace Sys2Proof.Machine

/-- Lay the frame of a record into the buffer, in the layout of the record's generation. -/
def layRecord (e : Endian) (r : FrameRecord) (m : Memory) : Memory :=
  match r.di with
  | .current gen aux => layFrame17 e (recordClock r) r.wt r.ut gen aux m
  | .legacy port => layFrame14 e r.low r.high r.wt r.ut port m

theorem layRecord_current {e : Endian} {r : FrameRecord} {gen aux : Word16} (h : r.di = .current gen aux) (m : Memory) :
    layRecord e r m = layFrame17 e (recordClock r) r.wt r.ut gen aux m := by
  simp only [layRecord, h]

theorem layRecord_legacy {e : Endian} {r : FrameRecord} {port : Byte} (h : r.di = .legacy port) (m : Memory) :
    layRecord e r m = layFrame14 e r.low r.high r.wt r.ut port m := by
  simp only [layRecord, h]

theorem frameBytes_current {e : Endian} {r : FrameRecord} {gen aux : Word16} (h : r.di = .current gen aux) :
    frameBytes e r = frame17Bytes e (recordClock r) r.wt r.ut gen aux := by
  simp only [frameBytes, h, recordClock]

theorem frameBytes_legacy {e : Endian} {r : FrameRecord} {port : Byte} (h : r.di = .legacy port) :
    frameBytes e r = frame14Bytes e r.low r.high r.wt r.ut port := by
  simp only [frameBytes, h]

/-! ## What the layout leaves in the buffer -/

/-- The frame stands in its `FRAME_LEN` offsets, and every other offset reads as before. -/
theorem read_layRecord (e : Endian) {r : FrameRecord} {g : Gen} (h : r.fits g = true) (m : Memory) (x : Nat) :
    Memory.read (layRecord e r m) x = if x < g.frameLen then (frameBytes e r)[x]? else Memory.read m x := by
  cases g
  case current =>
    obtain ⟨gen, aux, hdi⟩ := FrameRecord.fits_current h
    rw [layRecord_current hdi, frameBytes_current hdi, read_layFrame17]
    rfl
  case legacy =>
    obtain ⟨port, hdi⟩ := FrameRecord.fits_legacy h
    rw [layRecord_legacy hdi, frameBytes_legacy hdi, read_layFrame14]
    rfl

theorem read_layRecord_inside (e : Endian) {r : FrameRecord} {g : Gen} (h : r.fits g = true) (m : Memory) {x : Nat}
    (hx : x < g.frameLen) : Memory.read (layRecord e r m) x = (frameBytes e r)[x]? := by
  rw [read_layRecord e h, if_pos hx]

theorem read_layRecord_outside (e : Endian) {r : FrameRecord} {g : Gen} (h : r.fits g = true) (m : Memory) {x : Nat}
    (hx : g.frameLen ≤ x) : Memory.read (layRecord e r m) x = Memory.read m x := by
  rw [read_layRecord e h, if_neg hx.not_gt]

/-- The whole frame is read back from the buffer it was laid into. -/
theorem readBytes_layRecord (e : Endian) {r : FrameRecord} {g : Gen} (h : r.fits g = true) (m : Memory) :
    Memory.readBytes (layRecord e r m) 0 g.frameLen = some (frameBytes e r) :=
  Memory.readBytes_eq_some.2
    ⟨frameBytes_length e r g h, fun k hk => by rw [Nat.zero_add, read_layRecord_inside e h m hk]⟩

/-- Laying a frame keeps the canonical form of the buffer. -/
theorem wf_layRecord (e : Endian) (r : FrameRecord) {m : Memory} (h : Memory.wf m) : Memory.wf (layRecord e r m) := by
  unfold layRecord
  split <;> repeat' apply Memory.wf_writeField
  all_goals exact h

/-- Laying a frame lists no offset beyond `FRAME_LEN` that was not listed before (rule R61). -/
theorem mem_layRecord {e : Endian} {r : FrameRecord} {g : Gen} (hfits : r.fits g = true) {m : Memory} {cell : Host.Cell}
    (h : cell ∈ layRecord e r m) : cell.1 < g.frameLen ∨ cell ∈ m := by
  cases g
  case current =>
    obtain ⟨gen, aux, hdi⟩ := FrameRecord.fits_current hfits
    rw [layRecord_current hdi] at h
    iterate 8 obtain hin | h := Memory.mem_writeField h; · exact .inl (hin.2.trans_le (by decide))
    exact .inr h
  case legacy =>
    obtain ⟨port, hdi⟩ := FrameRecord.fits_legacy hfits
    rw [layRecord_legacy hdi] at h
    iterate 8 obtain hin | h := Memory.mem_writeField h; · exact .inl (hin.2.trans_le (by decide))
    exact .inr h

/-! ## The operations that lay a frame -/

/-- The row of a frame lays it into the buffer, in a block of its generation. -/
theorem exec_toInstr {r : FrameRecord} {s : State} (h : r.fits s.cfg.gen = true) :
    exec r.toInstr s = .next { s with buf := layRecord s.cfg.endian r s.buf } := by
  cases hgen : s.cfg.gen <;> rw [hgen] at h
  case current =>
    obtain ⟨gen, aux, hdi⟩ := FrameRecord.fits_current h
    rw [layRecord_current hdi, FrameRecord.toInstr, hdi]
    exact if_pos hgen
  case legacy =>
    obtain ⟨port, hdi⟩ := FrameRecord.fits_legacy h
    rw [layRecord_legacy hdi, FrameRecord.toInstr, hdi]
    exact if_pos hgen

theorem liveRecord_di (s : State) : (liveRecord s).di = digitalIn s :=
  (liveRecord_carries s).2.2.2

/-- The live record has the digital inputs of the block's generation (rule R44). -/
theorem liveRecord_fits (s : State) : (liveRecord s).fits s.cfg.gen = true := by
  rw [FrameRecord.fits, liveRecord_di]
  cases hgen : s.cfg.gen <;> simp only [digitalIn, hgen] <;> rfl

/-- `SNAP` of either generation lays the frame of the live registers (rules R192 and R193). -/
theorem exec_snapOf_of_phase {s : State} (hfg : s.fg = .snap) :
    exec (snapOf s.cfg.gen) s =
      .next { s with buf := layRecord s.cfg.endian (liveRecord s) s.buf, fg := .eint } := by
  have hdi := liveRecord_di s
  cases hgen : s.cfg.gen <;> simp only [digitalIn, hgen] at hdi
  case current =>
    rw [layRecord_current hdi, recordClock_current hgen, snapOf, exec, execSnap, inGeneration, if_pos hgen,
      foregroundStep_of_phase hfg]
    simp only [liveRecord, hgen]
  case legacy =>
    rw [layRecord_legacy hdi, snapOf, exec, execSnapLegacy, inGeneration, if_pos hgen, foregroundStep_of_phase hfg]
    simp only [liveRecord, hgen]

/-- `SNAP`, offset by offset: the frame of the live registers in its `FRAME_LEN` offsets, and the others as before. -/
theorem exec_snapOf_reads {s : State} (hfg : s.fg = .snap) :
    ∃ m, exec (snapOf s.cfg.gen) s = .next { s with buf := m, fg := .eint } ∧
      (∀ a, a < s.cfg.frameLen → Memory.read m a = (frameBytes s.cfg.endian (liveRecord s))[a]?) ∧
      (∀ a, s.cfg.frameLen ≤ a → Memory.read m a = Memory.read s.buf a) :=
  ⟨_, exec_snapOf_of_phase hfg, fun _ ha => read_layRecord_inside _ (liveRecord_fits s) _ ha,
    fun _ ha => read_layRecord_outside _ (liveRecord_fits s) _ ha⟩

/-- Just after `SNAP` the buffer holds the frame of the live registers, and it decodes to them (rules R200 and R232). -/
theorem exec_snapOf_decodes {s : State} (hfg : s.fg = .snap) :
    ∃ t f, exec (snapOf s.cfg.gen) s = .next t ∧ frameInBuffer t = some f ∧ frameDecode t.cfg f = some (liveRecord s) :=
  ⟨_, _, exec_snapOf_of_phase hfg, readBytes_layRecord s.cfg.endian (liveRecord_fits s) s.buf,
    frameDecode_of_frameBytes s.cfg (liveRecord_fits s)⟩

/-- Settles O39: `SNAP` lays the frame of the live record, decoding inverts the layout, and the live record carries the
registers. -/
theorem snapshotRoundTrip : Obligations.SnapshotRoundTrip := by
  intro s hfg
  obtain ⟨t, f, hsnap, hframe, hdecode⟩ := exec_snapOf_decodes hfg
  exact ⟨t, f, liveRecord s, hsnap, hframe, hdecode, liveRecord_carries s⟩

/-- Settles O20: the frame of the live record, offset by offset. -/
theorem snapLaysCurrentFrame : Obligations.SnapLaysCurrentFrame := by
  refine ⟨?lays, ?otherPhase, ?otherGeneration⟩
  case lays =>
    intro s hgen hfg
    have hdi : (liveRecord s).di = .current s.diGen s.diAux := by rw [liveRecord_di, digitalIn, hgen]
    obtain ⟨m, hsnap, hin, hout⟩ := exec_snapOf_reads hfg
    rw [hgen] at hsnap
    simp only [Cfg.frameLen, hgen, frameBytes_current hdi] at hin hout
    exact ⟨m, liveRecord s, hsnap, liveRecord_carries s, hin, hout⟩
  case otherPhase => exact fun s hgen hfg => (if_pos hgen).trans (foregroundStep_of_other_phase hfg)
  case otherGeneration => exact fun s hgen => if_neg (by rw [hgen]; decide)

/-- Settles O21: the same of the `LEGACY` layout. -/
theorem snapLaysLegacyFrame : Obligations.SnapLaysLegacyFrame := by
  refine ⟨?lays, ?otherPhase, ?otherGeneration⟩
  case lays =>
    intro s hgen hfg
    have hdi : (liveRecord s).di = .legacy s.diPort := by rw [liveRecord_di, digitalIn, hgen]
    obtain ⟨m, hsnap, hin, hout⟩ := exec_snapOf_reads hfg
    rw [hgen] at hsnap
    simp only [Cfg.frameLen, hgen, frameBytes_legacy hdi] at hin hout
    exact ⟨m, liveRecord s, hsnap, liveRecord_carries s, hin, hout⟩
  case otherPhase => exact fun s hgen hfg => (if_pos hgen).trans (foregroundStep_of_other_phase hfg)
  case otherGeneration => exact fun s hgen => if_neg (by rw [hgen]; decide)

/-- Settles O37: a frame's row is the layout of its record. -/
theorem frameRowsLayTheirBytes : Obligations.FrameRowsLayTheirBytes := fun _ s hfits =>
  ⟨_, exec_toInstr hfits, fun _ ha => read_layRecord_inside s.cfg.endian hfits s.buf ha,
    fun _ ha => read_layRecord_outside s.cfg.endian hfits s.buf ha⟩

/-- Settles O38: the acceptance test of `FRAME_DECODE` is that the three constant bytes stand in their places. -/
theorem frameDecodeRecordsResult : Obligations.FrameDecodeRecordsResult := by
  refine ⟨fun _ _ => rfl, fun c f hlen => ?_⟩
  have hmarked : (frameDecode c f).isSome = true ↔ frameMarked c.gen f = true := by
    rw [frameDecode, Option.isSome_ite]
  rw [hmarked, frameMarked_iff]
  exact and_iff_right hlen

end Sys2Proof.Machine
end

section
/-! Resynchronisation (rule R231): from a frame's first byte the procedure delivers it and goes on after its last, and
fewer bytes than a frame has deliver nothing. -/

namespace Sys2Proof.Machine

theorem frameLen_pos (c : Cfg) : 0 < c.frameLen := by
  unfold Cfg.frameLen
  cases c.gen <;> decide

/-- Fewer than `FRAME_LEN` bytes are no frame (rule R230). -/
theorem frameDecode_of_short {c : Cfg} {f : List Byte} (h : f.length < c.frameLen) : frameDecode c f = none :=
  if_neg fun hmarked => h.ne (frameMarked_iff.1 hmarked).1

/-- The bytes of a delivered frame that are still to come are passed. -/
theorem resync_pass (c : Cfg) (passed bs : List Byte) : resync c passed.length (passed ++ bs) = resync c 0 bs := by
  induction passed with
  | nil => rfl
  | cons b passed ih => exact ih

theorem resync_of_short {c : Cfg} {part : List Byte} (h : part.length < c.frameLen) : resync c 0 part = [] := by
  induction part with
  | nil => rfl
  | cons b part ih =>
    have hnone : frameDecode c ((b :: part).take c.frameLen) = none := by
      rw [List.take_of_length_le h.le, frameDecode_of_short h]
    rw [resync, hnone]
    exact ih (Nat.lt_of_succ_lt h)

/-- A frame at the head is delivered, and the procedure goes on behind it. -/
theorem resync_frame {c : Cfg} {r : FrameRecord} (h : r.fits c.gen = true) (bs : List Byte) :
    resync c 0 (frameBytes c.endian r ++ bs) = r :: resync c 0 bs := by
  have hlen : (frameBytes c.endian r).length = c.frameLen := frameBytes_length c.endian r c.gen h
  have hsome : frameDecode c ((frameBytes c.endian r ++ bs).take c.frameLen) = some r := by
    rw [List.take_left' hlen, frameDecode_of_frameBytes c h]
  cases hframe : frameBytes c.endian r with
  | nil => rw [hframe] at hlen; exact absurd hlen (frameLen_pos c).ne
  | cons b tail =>
    rw [hframe] at hlen hsome
    rw [List.cons_append] at hsome ⊢
    rw [resync, hsome, ← hlen]
    exact congrArg _ (resync_pass c tail bs)

/-- A sequence of frames and then a part of one delivers the frames (rule R231). -/
theorem resync_frames {c : Cfg} {rs : List FrameRecord} (h : ∀ r ∈ rs, r.fits c.gen = true) {part : List Byte}
    (hpart : part.length < c.frameLen) : resync c 0 (rs.flatMap (frameBytes c.endian) ++ part) = rs := by
  induction rs with
  | nil => exact resync_of_short hpart
  | cons r rs ih =>
    obtain ⟨hr, hrs⟩ := List.forall_mem_cons.1 h
    rw [List.flatMap_cons, List.append_assoc, resync_frame hr, ih hrs]

/-- Under the invariant the frame being sent is not yet sent to its end (rule R213). -/
theorem sentPart_length_lt {s : State} (h : Inv s) : (sentPart s).length < s.cfg.frameLen := by
  unfold sentPart
  split
  case isTrue hfg => exact (List.length_take_le _ _).trans_lt (h.idxInFrame hfg)
  case isFalse => exact frameLen_pos s.cfg

/-- Settles O43: by induction on the frames; the invariant says that the output is such a sequence. -/
theorem resyncDeliversFramesSent : Obligations.ResyncDeliversFramesSent := by
  refine ⟨fun c rs part hfits hpart => resync_frames hfits hpart, fun s hinv => ?_⟩
  obtain ⟨rs, hfits, hout⟩ := hinv.outputFramed
  exact ⟨rs, by rw [hout]; exact resync_frames hfits (sentPart_length_lt hinv), hout⟩

end Sys2Proof.Machine
end

section
/-! Who writes what (rules R46, R70 and R296): for each kind of agent the registers that its operations write between
them, so that what an agent leaves alone need not be read off its operations one by one. -/

namespace Sys2Proof.Machine

/-! ## The frame of each agent -/

/-- The environment writes its latches, the counter and the flags it raises. -/
theorem exec_environment_frame {i : Instr} {s t : State} (hi : i.agent = some .environment) (h : exec i s = .next t) :
    ∃ fa fz fo fc fr pa pb pz lo rx tr dg da dp, t = { s with
      ifgA := fa, ifgZ := fz, ifgOvf := fo, ifgCmp := fc, ifgRx := fr, pinA := pa, pinB := pb, pinZ := pz
      low := lo, rxReg := rx, txRdy := tr, diGen := dg, diAux := da, diPort := dp } := by
  cases i
  case tick => exact ⟨_, _, _, _, _, _, _, _, _, _, _, _, _, _, execTick_next h⟩
  case pin => exact ⟨_, _, _, _, _, _, _, _, _, _, _, _, _, _, execPin_next h⟩
  case rxb => exact ⟨_, _, _, _, _, _, _, _, _, _, _, _, _, _, execRxb_next h⟩
  case txrdy => exact ⟨_, _, _, _, _, _, _, _, _, _, _, _, _, _, execTxrdy_next h⟩
  case din =>
    obtain ⟨-, dg, da, dp, rfl⟩ := execDin_next h
    exact ⟨_, _, _, _, _, _, _, _, _, _, _, dg, da, dp, rfl⟩
  all_goals cases hi

/-- The handlers are those of the five sources (rule R295). -/
theorem eq_handlerOf_of_agent {i : Instr} (hi : i.agent = some .handler) : ∃ src, i = handlerOf src := by
  cases i
  case isrA => exact ⟨.a, rfl⟩
  case isrZ => exact ⟨.z, rfl⟩
  case isrOvf => exact ⟨.ovf, rfl⟩
  case isrCmp => exact ⟨.cmp, rfl⟩
  case isrRx => exact ⟨.rx, rfl⟩
  all_goals cases hi

/-- A handler writes its own flag, `wake`, and the registers the bodies write. -/
theorem exec_handlerOf_frame {src : Source} {s t : State} (h : exec (handlerOf src) s = .next t) :
    ∃ fa fz fo fc fr wk wt ut arm high thr mb mc rd ps op pp, t = { s with
      ifgA := fa, ifgZ := fz, ifgOvf := fo, ifgCmp := fc, ifgRx := fr, wake := wk
      wt := wt, ut := ut, arm := arm, high := high, thr := thr
      mbByte := mb, mbCommand := mc, mbReady := rd, pstate := ps, pOp := op, pPin := pp } := by
  obtain ⟨wt, ut, arm, high, thr, mb, mc, rd, ps, op, pp, he⟩ := handlerBody_frame src (clearFlag src s)
  rw [exec_handlerOf_next h, he]
  exact ⟨_, _, _, _, _, _, wt, ut, arm, high, thr, mb, mc, rd, ps, op, pp, rfl⟩

/-- The foreground writes the flags, at boot, the ready flag, the frame's registers, the phase with `gie` and `wake`,
and the digital outputs. -/
theorem exec_foreground_frame {i : Instr} {s t : State} (hi : i.agent = some .foreground) (h : exec i s = .next t) :
    ∃ fa fz fo fc fr rd buf ix tr out gie fg wk gm am go ao dp, t = { s with
      ifgA := fa, ifgZ := fz, ifgOvf := fo, ifgCmp := fc, ifgRx := fr, mbReady := rd, buf := buf, txIdx := ix
      txRdy := tr, txOut := out, gie := gie, fg := fg, wake := wk
      genMode := gm, auxMode := am, genOut := go, auxOut := ao, doPort := dp } := by
  cases i
  case boot => exact ⟨_, _, _, _, _, _, _, _, _, _, _, _, _, _, _, _, _, _, (execBoot_next h).2⟩
  case sleep => exact ⟨_, _, _, _, _, _, _, _, _, _, _, _, _, _, _, _, _, _, (execSleep_next h).2.2⟩
  case mbTake =>
    obtain ⟨-, gm, am, go, ao, dp, -, rfl⟩ := execMbTake_frame h
    exact ⟨_, _, _, _, _, _, _, _, _, _, _, _, _, gm, am, go, ao, dp, rfl⟩
  case mbClear => exact ⟨_, _, _, _, _, _, _, _, _, _, _, _, _, _, _, _, _, _, (execMbClear_next h).2⟩
  case dint => exact ⟨_, _, _, _, _, _, _, _, _, _, _, _, _, _, _, _, _, _, (execDint_next h).2⟩
  case snap => exact ⟨_, _, _, _, _, _, _, _, _, _, _, _, _, _, _, _, _, _, (execSnap_next h).2.2⟩
  case snapLegacy => exact ⟨_, _, _, _, _, _, _, _, _, _, _, _, _, _, _, _, _, _, (execSnapLegacy_next h).2.2⟩
  case eint => exact ⟨_, _, _, _, _, _, _, _, _, _, _, _, _, _, _, _, _, _, (execEint_next h).2⟩
  case txb =>
    obtain ⟨-, -, -, b, -, rfl⟩ := execTxb_next h
    exact ⟨_, _, _, _, _, _, _, _, _, _, _, _, _, _, _, _, _, _, rfl⟩
  all_goals cases hi

/-- The rows that no agent takes write the digital outputs, the buffer and the host-side field. -/
theorem exec_row_frame {i : Instr} {s t : State} (hi : i.agent = none) (h : exec i s = .next t) :
    ∃ gm am go ao dp buf hf, t = { s with
      genMode := gm, auxMode := am, genOut := go, auxOut := ao, doPort := dp, buf := buf, hostFrame := hf } := by
  cases i
  case cfgd => exact ⟨_, _, _, _, _, _, _, (execCfgd_next h).2⟩
  case cfga => exact ⟨_, _, _, _, _, _, _, (execCfga_next h).2⟩
  case wrd => exact ⟨_, _, _, _, _, _, _, (execWrd_next h).2⟩
  case wrdm => exact ⟨_, _, _, _, _, _, _, (execWrdm_next h).2⟩
  case wra => exact ⟨_, _, _, _, _, _, _, (execWra_next h).2⟩
  case wrport => exact ⟨_, _, _, _, _, _, _, (execWrport_next h).2⟩
  case frame17 => exact ⟨_, _, _, _, _, _, _, (execFrame17_next h).2⟩
  case frame14 => exact ⟨_, _, _, _, _, _, _, (execFrame14_next h).2⟩
  case frameDecode => exact ⟨_, _, _, _, _, _, _, execFrameDecode_next h⟩
  all_goals cases hi

/-! ## The table of writers -/

theorem Source.exists_iff {p : Source → Prop} : (∃ src, p src) ↔ p .a ∨ p .z ∨ p .ovf ∨ p .cmp ∨ p .rx := by
  constructor
  · rintro ⟨src, h⟩
    cases src
    case a => exact .inl h
    case z => exact .inr (.inl h)
    case ovf => exact .inr (.inr (.inl h))
    case cmp => exact .inr (.inr (.inr (.inl h)))
    case rx => exact .inr (.inr (.inr (.inr h)))
  · rintro (h | h | h | h | h) <;> exact ⟨_, h⟩

/-- Settles O51: each operation's next state, read against the table's column of writers. -/
theorem writersOfRegisters : Obligations.WritersOfRegisters := by
  intro i s t hi h
  cases i
  case tick => rw [execTick_next h]; simp +contextual [sameOutputs]
  case pin => rw [execPin_next h]; simp +contextual [sameOutputs]
  case rxb => rw [execRxb_next h]; simp [sameOutputs]
  case txrdy => rw [execTxrdy_next h]; simp [sameOutputs]
  case din => obtain ⟨-, _, _, _, rfl⟩ := execDin_next h; simp [sameOutputs]
  case isrA =>
    obtain ⟨-, _, _, _, -, rfl⟩ := execIsrA_next h
    simp +contextual [sameOutputs, Source.exists_iff, handlerOf, WakeSet.has]
  case isrZ =>
    rw [(execIsrZ_next h).2]
    simp +contextual [sameOutputs, Source.exists_iff, handlerOf, WakeSet.has]
  case isrOvf =>
    rw [(execIsrOvf_next h).2]
    simp +contextual [sameOutputs, Source.exists_iff, handlerOf, WakeSet.has]
  case isrCmp =>
    rw [(execIsrCmp_next h).2]
    simp +contextual [sameOutputs, Source.exists_iff, handlerOf, WakeSet.has]
  case isrRx =>
    obtain ⟨-, _, _, _, ps, op, pp, hready, hlegacy, rfl⟩ := execIsrRx_next h
    have hparser : ps ≠ s.pstate ∨ op ≠ s.pOp ∨ pp ≠ s.pPin → s.cfg.gen = .current := by
      cases hgen : s.cfg.gen
      case current => exact fun _ => rfl
      case legacy => simp [hlegacy hgen]
    simp +contextual [sameOutputs, Source.exists_iff, handlerOf, WakeSet.has, hready, hparser]
  case boot => rw [(execBoot_next h).2]; simp [sameOutputs, Instr.agent]
  case sleep => rw [(execSleep_next h).2.2]; simp [sameOutputs, Instr.agent]
  case mbTake =>
    obtain ⟨-, _, _, _, _, _, hidle, rfl⟩ := execMbTake_frame h
    cases hready : s.mbReady <;> simp [sameOutputs, Instr.agent, hready, hidle]
  case mbClear => rw [(execMbClear_next h).2]; simp [sameOutputs, Instr.agent]
  case dint => rw [(execDint_next h).2]; simp [sameOutputs, Instr.agent]
  case snap =>
    obtain ⟨hgen, -, rfl⟩ := execSnap_next h
    simp [sameOutputs, Instr.agent, snapOf, hgen]
  case snapLegacy =>
    obtain ⟨hgen, -, rfl⟩ := execSnapLegacy_next h
    simp [sameOutputs, Instr.agent, snapOf, hgen]
  case eint => rw [(execEint_next h).2]; simp [sameOutputs, Instr.agent]
  case txb => obtain ⟨-, -, -, _, -, rfl⟩ := execTxb_next h; simp [sameOutputs, Instr.agent]
  all_goals exact absurd rfl hi

end Sys2Proof.Machine
end

section
/-! What follows from who writes what (rules R25, R74 and R240): the registers only handlers write, the two tick
counters, the parameters and the choices, and the order of the foreground. -/

namespace Sys2Proof.Machine

/-! ## What only handlers write -/

/-- Two states agree on the parameters and on the registers that only handlers write (rule R74). -/
def sameHandlerRegisters (s t : State) : Prop :=
  t.cfg = s.cfg ∧ t.wt.toNat = s.wt.toNat ∧ t.ut.toNat = s.ut.toNat ∧ t.high.toNat = s.high.toNat ∧
    t.thr.toNat = s.thr.toNat ∧ t.arm = s.arm ∧ t.mbByte = s.mbByte ∧ t.mbCommand = s.mbCommand ∧
    t.pstate = s.pstate ∧ t.pOp = s.pOp ∧ t.pPin = s.pPin

/-- What is no handler keeps the registers that only handlers write. -/
theorem exec_sameHandlerRegisters {i : Instr} {s t : State} (hi : i.agent ≠ some .handler) (h : exec i s = .next t) :
    sameHandlerRegisters s t := by
  rcases hagent : i.agent with - | - | - | -
  · obtain ⟨_, _, _, _, _, _, _, rfl⟩ := exec_row_frame hagent h
    simp [sameHandlerRegisters]
  · obtain ⟨_, _, _, _, _, _, _, _, _, _, _, _, _, _, rfl⟩ := exec_environment_frame hagent h
    simp [sameHandlerRegisters]
  · exact absurd hagent hi
  · obtain ⟨_, _, _, _, _, _, _, _, _, _, _, _, _, _, _, _, _, _, rfl⟩ := exec_foreground_frame hagent h
    simp [sameHandlerRegisters]

/-- The choice of the next operation moves none of them. -/
theorem afterChoice_sameHandlerRegisters (s : State) : sameHandlerRegisters s (afterChoice s) := by
  simp [sameHandlerRegisters]

/-- Settles O52: a handler is what could write them, and has no step under the mask. -/
theorem criticalSectionKeepsRegisters : Obligations.CriticalSectionKeepsRegisters := by
  intro s t hgie h
  obtain ⟨-, hexec⟩ | ⟨-, rfl⟩ := step_cases h
  · refine exec_sameHandlerRegisters (s := afterChoice s) (fun hhandler => ?_) hexec
    obtain ⟨src, hsrc⟩ := eq_handlerOf_of_agent hhandler
    rw [hsrc, exec_handlerOf_of_masked (s := afterChoice s) hgie] at hexec
    cases hexec
  · exact afterChoice_sameHandlerRegisters s

/-- Settles O53: of the handlers only those of A and Z write a tick counter, and what is no handler writes neither. -/
theorem countersMoveTogether : Obligations.CountersMoveTogether := by
  intro i s t h
  refine ⟨exec_cfg h, ?_⟩
  by_cases hhandler : i.agent = some .handler
  · obtain ⟨src, rfl⟩ := eq_handlerOf_of_agent hhandler
    cases src
    case a =>
      obtain ⟨-, _, _, _, ⟨rfl, rfl⟩ | ⟨rfl, rfl⟩ | ⟨rfl, rfl⟩, rfl⟩ := execIsrA_next h
      · exact .inl ⟨rfl, rfl⟩
      · exact .inr (.inl ⟨rfl, rfl, rfl⟩)
      · exact .inr (.inr (.inl ⟨rfl, rfl, rfl⟩))
    case z => rw [(execIsrZ_next h).2]; exact .inr (.inr (.inr ⟨rfl, rfl, rfl⟩))
    case ovf => rw [(execIsrOvf_next h).2]; exact .inl ⟨rfl, rfl⟩
    case cmp => rw [(execIsrCmp_next h).2]; exact .inl ⟨rfl, rfl⟩
    case rx => obtain ⟨-, _, _, _, _, _, _, -, -, rfl⟩ := execIsrRx_next h; exact .inl ⟨rfl, rfl⟩
  · obtain ⟨-, hwt, hut, -⟩ := exec_sameHandlerRegisters hhandler h
    exact .inl ⟨hut, hwt⟩

/-! ## The choices -/

/-- No operation touches the choices still to come (rule R70). -/
theorem exec_schedule {i : Instr} {s t : State} (h : exec i s = .next t) : t.schedule = s.schedule := by
  rcases hagent : i.agent with - | - | - | -
  · obtain ⟨_, _, _, _, _, _, _, rfl⟩ := exec_row_frame hagent h; rfl
  · obtain ⟨_, _, _, _, _, _, _, _, _, _, _, _, _, _, rfl⟩ := exec_environment_frame hagent h; rfl
  · obtain ⟨src, rfl⟩ := eq_handlerOf_of_agent hagent
    obtain ⟨_, _, _, _, _, _, _, _, _, _, _, _, _, _, _, _, _, rfl⟩ := exec_handlerOf_frame h; rfl
  · obtain ⟨_, _, _, _, _, _, _, _, _, _, _, _, _, _, _, _, _, _, rfl⟩ := exec_foreground_frame hagent h; rfl

/-- A step uses up one choice. -/
theorem step_schedule {s t : State} (h : step s = .next t) : t.schedule = s.schedule.tail := by
  obtain ⟨-, hexec⟩ | ⟨-, rfl⟩ := step_cases h
  · rw [exec_schedule hexec, afterChoice_schedule]
  · exact afterChoice_schedule s

/-! ## The foreground's order -/

/-- What belongs to the foreground alone, and the invariant speaks of: the parameters, the frame's registers, `gie` and
the phase. -/
def sameForegroundRegisters (s t : State) : Prop :=
  t.cfg = s.cfg ∧ t.buf = s.buf ∧ t.txIdx = s.txIdx ∧ t.txOut = s.txOut ∧ t.gie = s.gie ∧ t.fg = s.fg

/-- The environment leaves the foreground's registers alone (rules R46 and R240). -/
theorem exec_environment_sameForegroundRegisters {i : Instr} {s t : State} (hi : i.agent = some .environment)
    (h : exec i s = .next t) : sameForegroundRegisters s t := by
  obtain ⟨_, _, _, _, _, _, _, _, _, _, _, _, _, _, rfl⟩ := exec_environment_frame hi h
  simp [sameForegroundRegisters]

/-- The handlers leave the foreground's registers alone (rules R46 and R240). -/
theorem exec_handler_sameForegroundRegisters {i : Instr} {s t : State} (hi : i.agent = some .handler)
    (h : exec i s = .next t) : sameForegroundRegisters s t := by
  obtain ⟨src, rfl⟩ := eq_handlerOf_of_agent hi
  obtain ⟨_, _, _, _, _, _, _, _, _, _, _, _, _, _, _, _, _, rfl⟩ := exec_handlerOf_frame h
  simp [sameForegroundRegisters]

/-- Nothing but the foreground moves the phase (rule R240). -/
theorem exec_fg_of_not_foreground {i : Instr} {s t : State} (hi : i.agent ≠ some .foreground) (h : exec i s = .next t) :
    t.fg = s.fg := by
  rcases hagent : i.agent with - | - | - | -
  · obtain ⟨_, _, _, _, _, _, _, rfl⟩ := exec_row_frame hagent h; rfl
  · obtain ⟨-, -, -, -, -, hfg⟩ := exec_environment_sameForegroundRegisters hagent h; exact hfg
  · obtain ⟨-, -, -, -, -, hfg⟩ := exec_handler_sameForegroundRegisters hagent h; exact hfg
  · exact absurd hagent hi

/-- The one operation the foreground has in each phase (rule R240). -/
def foregroundAt (g : Gen) : Phase → Instr
  | .boot => .boot
  | .sleep => .sleep
  | .take => .mbTake
  | .clear => .mbClear
  | .dint => .dint
  | .snap => snapOf g
  | .eint => .eint
  | .tx => .txb

/-- A foreground operation that has a step is the one of the phase. -/
theorem eq_foregroundAt_of_canStep {i : Instr} {s : State} (hi : i.agent = some .foreground)
    (h : canStep i s = true) : i = foregroundAt s.cfg.gen s.fg := by
  cases i
  case boot => rw [atPhase_iff.1 h]; rfl
  case sleep => rw [atPhase_iff.1 (Bool.and_eq_true_iff.1 h).1]; rfl
  case mbTake => rw [atPhase_iff.1 h]; rfl
  case mbClear => rw [atPhase_iff.1 h]; rfl
  case dint => rw [atPhase_iff.1 h]; rfl
  case snap =>
    obtain ⟨hfg, hgen⟩ := Bool.and_eq_true_iff.1 h
    rw [atPhase_iff.1 hfg, beq_iff_eq.1 hgen]; rfl
  case snapLegacy =>
    obtain ⟨hfg, hgen⟩ := Bool.and_eq_true_iff.1 h
    rw [atPhase_iff.1 hfg, beq_iff_eq.1 hgen]; rfl
  case eint => rw [atPhase_iff.1 h]; rfl
  case txb => rw [atPhase_iff.1 (Bool.and_eq_true_iff.1 h).1]; rfl
  all_goals cases hi

/-- Every foreground operation goes to a phase the loop's order allows (rule R240). -/
theorem exec_foreground_follows {i : Instr} {s t : State} (hi : i.agent = some .foreground) (h : exec i s = .next t) :
    follows s.fg t.fg = true := by
  cases i
  case boot => obtain ⟨hfg, rfl⟩ := execBoot_next h; rw [hfg]; rfl
  case sleep => obtain ⟨hfg, -, rfl⟩ := execSleep_next h; rw [hfg]; rfl
  case mbTake =>
    obtain ⟨hfg, ⟨-, rfl⟩ | ⟨-, rfl⟩⟩ := execMbTake_next h
    · rw [hfg]; rfl
    · rw [hfg]; rfl
  case mbClear => obtain ⟨hfg, rfl⟩ := execMbClear_next h; rw [hfg]; rfl
  case dint => obtain ⟨hfg, rfl⟩ := execDint_next h; rw [hfg]; rfl
  case snap => obtain ⟨-, hfg, rfl⟩ := execSnap_next h; rw [hfg]; rfl
  case snapLegacy => obtain ⟨-, hfg, rfl⟩ := execSnapLegacy_next h; rw [hfg]; rfl
  case eint => obtain ⟨hfg, rfl⟩ := execEint_next h; rw [hfg]; rfl
  case txb =>
    obtain ⟨hfg, -, -, b, -, rfl⟩ := execTxb_next h
    rw [transmit_fg, hfg]
    split <;> rfl
  all_goals cases hi

/-- Settles O24: each phase has one foreground operation, which leads where the order says; nobody else moves the
phase. -/
theorem foregroundOrder : Obligations.ForegroundOrder := by
  refine ⟨?atMostOne, fun _ _ _ => exec_foreground_follows, fun _ _ _ => exec_fg_of_not_foreground⟩
  case atMostOne =>
    intro i j s hi hj hstepI hstepJ
    rw [eq_foregroundAt_of_canStep hi hstepI, eq_foregroundAt_of_canStep hj hstepJ]

end Sys2Proof.Machine
end

section
/-! Enabling (rule R15): where the condition of an operation fails it is refused, and where it holds it steps. -/

namespace Sys2Proof.Machine

theorem foregroundStep_of_disabled {b : Bit} {o : Host.Outcome State Fault Refusal} (h : b = false) :
    foregroundStep b o = .refused .notEnabled :=
  if_neg (by rw [h]; exact Bool.false_ne_true)

theorem inGeneration_of_gen {g : Gen} {s : State} (o : Host.Outcome State Fault Refusal) (h : s.cfg.gen = g) :
    inGeneration g s o = o :=
  if_pos h

theorem canStep_handlerOf (src : Source) (s : State) : canStep (handlerOf src) s = handlerEnabled src s := by
  cases src <;> rfl

/-- An operation of an agent whose condition fails is refused (rule R15). -/
theorem exec_of_not_canStep {i : Instr} {s : State} (hi : i.agent ≠ none) (hwf : i.wf s.cfg = true)
    (h : canStep i s = false) : exec i s = .refused .notEnabled := by
  have hhandler (src : Source) (h : canStep (handlerOf src) s = false) :
      exec (handlerOf src) s = .refused .notEnabled := by
    rw [canStep_handlerOf] at h
    rw [exec_handlerOf, takeInterrupt_of_disabled h]
  have hsnap {o : Host.Outcome State Fault Refusal} {g : Gen} (hgen : s.cfg.gen = g)
      (h : (atPhase .snap s && s.cfg.gen == g) = false) :
      inGeneration g s (foregroundStep (atPhase .snap s) o) = .refused .notEnabled := by
    rw [hgen, beq_self_eq_true, Bool.and_true] at h
    rw [inGeneration_of_gen _ hgen, foregroundStep_of_disabled h]
  cases i
  case tick => cases h
  case pin => cases h
  case rxb => cases h
  case txrdy => cases h
  case din d => exact nomatch hwf.symm.trans h
  case isrA => exact hhandler .a h
  case isrZ => exact hhandler .z h
  case isrOvf => exact hhandler .ovf h
  case isrCmp => exact hhandler .cmp h
  case isrRx => exact hhandler .rx h
  case snap => exact hsnap (beq_iff_eq.1 hwf) h
  case snapLegacy => exact hsnap (beq_iff_eq.1 hwf) h
  case boot => exact foregroundStep_of_disabled h
  case sleep => exact foregroundStep_of_disabled h
  case mbTake => exact foregroundStep_of_disabled h
  case mbClear => exact foregroundStep_of_disabled h
  case dint => exact foregroundStep_of_disabled h
  case eint => exact foregroundStep_of_disabled h
  case txb => exact foregroundStep_of_disabled h
  all_goals exact absurd rfl hi

/-- An operation other than `TXB` whose condition holds answers a next state (rule R15). -/
theorem exec_of_canStep {i : Instr} {s : State} (h : canStep i s = true) (htxb : i ≠ .txb) :
    ∃ t, exec i s = .next t := by
  have hhandler (src : Source) (h : canStep (handlerOf src) s = true) : ∃ t, exec (handlerOf src) s = .next t :=
    ⟨_, exec_handlerOf_of_enabled ((canStep_handlerOf src s).symm.trans h)⟩
  have hforeground {b : Bit} {u : State} (h : b = true) : ∃ t, foregroundStep b (.next u) = .next t :=
    ⟨u, foregroundStep_next_iff.2 ⟨h, rfl⟩⟩
  have hsnap {g : Gen} {u : State} (h : (atPhase .snap s && s.cfg.gen == g) = true) :
      ∃ t, inGeneration g s (foregroundStep (atPhase .snap s) (.next u)) = .next t := by
    obtain ⟨hfg, hgen⟩ := Bool.and_eq_true_iff.1 h
    rw [inGeneration_of_gen _ (beq_iff_eq.1 hgen)]
    exact hforeground hfg
  cases i
  case tick => exact ⟨_, rfl⟩
  case pin => exact ⟨_, rfl⟩
  case rxb => exact ⟨_, rfl⟩
  case txrdy => exact ⟨_, rfl⟩
  case din d =>
    cases hgen : s.cfg.gen <;> cases d <;> simp only [canStep, hgen] at h
    case current.current => exact ⟨_, inGeneration_of_gen _ hgen⟩
    case legacy.legacy => exact ⟨_, inGeneration_of_gen _ hgen⟩
    all_goals cases h
  case isrA => exact hhandler .a h
  case isrZ => exact hhandler .z h
  case isrOvf => exact hhandler .ovf h
  case isrCmp => exact hhandler .cmp h
  case isrRx => exact hhandler .rx h
  case boot => exact hforeground h
  case sleep => exact hforeground h
  case mbTake => exact hforeground h
  case mbClear => exact hforeground h
  case dint => exact hforeground h
  case snap => exact hsnap h
  case snapLegacy => exact hsnap h
  case eint => exact hforeground h
  case txb => exact absurd rfl htxb
  all_goals cases h

/-- Settles O50: the two directions over the operations of the agents. -/
theorem enabledExactlyWhenItSteps : Obligations.EnabledExactlyWhenItSteps :=
  ⟨fun _ _ => exec_of_not_canStep, fun _ _ => exec_of_canStep⟩

end Sys2Proof.Machine
end

section
/-! The invariant (rules R61, R121, R213 and R240): it reads the foreground's registers only, so the environment and the
handlers keep it, and each foreground operation is checked against what it does to the frame and the output. -/

namespace Sys2Proof.Machine

/-! ## The part of the frame that is sent -/

theorem sentPart_of_not_tx {s : State} (h : s.fg ≠ .tx) : sentPart s = [] :=
  if_neg h

theorem sentPart_of_tx {s : State} {f : List Byte} (hfg : s.fg = .tx) (hframe : frameInBuffer s = some f) :
    sentPart s = f.take s.txIdx := by
  rw [sentPart, if_pos hfg, hframe, Option.getD_some]

theorem frameInBuffer_congr {s t : State} (hcfg : t.cfg = s.cfg) (hbuf : t.buf = s.buf) :
    frameInBuffer t = frameInBuffer s := by
  rw [frameInBuffer, frameInBuffer, hcfg, hbuf]

/-- The byte at an offset of a whole frame in the buffer. -/
theorem read_of_frameInBuffer {s : State} {f : List Byte} (h : frameInBuffer s = some f) {k : Nat}
    (hk : k < s.cfg.frameLen) : Memory.read s.buf k = f[k]? := by
  rw [← (Memory.readBytes_eq_some.1 h).2 k hk, Nat.zero_add]

theorem length_of_frameInBuffer {s : State} {f : List Byte} (h : frameInBuffer s = some f) :
    f.length = s.cfg.frameLen :=
  (Memory.readBytes_eq_some.1 h).1

/-- Within the frame there is a byte to send, the first of those left. -/
theorem exists_byte_of_frameInBuffer {s : State} {f : List Byte} (h : frameInBuffer s = some f) {k : Nat}
    (hk : k < s.cfg.frameLen) : ∃ b, Memory.read s.buf k = some b ∧ f.drop k = b :: f.drop (k + 1) := by
  have hlt : k < f.length := by rw [length_of_frameInBuffer h]; exact hk
  exact ⟨f[k], by rw [read_of_frameInBuffer h hk, List.getElem?_eq_getElem hlt], List.drop_eq_getElem_cons hlt⟩

/-! ## Who keeps the invariant -/

/-- The invariant reads the parameters and the foreground's registers and nothing else. -/
theorem Inv.of_sameForegroundRegisters {s t : State} (h : Inv s) (hsame : sameForegroundRegisters s t) : Inv t := by
  obtain ⟨hcfg, hbuf, hidx, hout, hgie, hfg⟩ := hsame
  have hframe := frameInBuffer_congr hcfg hbuf
  have hsent : sentPart t = sentPart s := by rw [sentPart, sentPart, hframe, hfg, hidx]
  constructor
  case cfgLegal => rw [hcfg]; exact h.cfgLegal
  case bufCanonical => rw [hbuf]; exact h.bufCanonical
  case bufInRange => rw [hbuf, hcfg]; exact h.bufInRange
  case gieOfPhase => rw [hgie, hfg]; exact h.gieOfPhase
  case idxBounded => rw [hidx, hcfg]; exact h.idxBounded
  case idxInFrame => rw [hfg, hidx, hcfg]; exact h.idxInFrame
  case frameBuilt => rw [hfg, hframe, hcfg]; exact h.frameBuilt
  case outputFramed => rw [hout, hsent, hcfg]; exact h.outputFramed

/-- A move of the phase outside the transmission, with `gie` as the new phase says, keeps the invariant. -/
theorem Inv.of_phase {p q : Phase} {s t : State} (h : Inv s) (hs : s.fg = p) (ht : t.fg = q) (hp : p ≠ .tx)
    (hq : q ≠ .eint ∧ q ≠ .tx) (hcfg : t.cfg = s.cfg) (hbuf : t.buf = s.buf) (hidx : t.txIdx = s.txIdx)
    (hout : t.txOut = s.txOut) (hgie : t.gie = gieIn q) : Inv t := by
  subst hs ht
  obtain ⟨heint, htx⟩ := hq
  constructor
  case cfgLegal => rw [hcfg]; exact h.cfgLegal
  case bufCanonical => rw [hbuf]; exact h.bufCanonical
  case bufInRange => rw [hbuf, hcfg]; exact h.bufInRange
  case gieOfPhase => exact hgie
  case idxBounded => rw [hidx, hcfg]; exact h.idxBounded
  case idxInFrame => exact fun hfg => absurd hfg htx
  case frameBuilt => rintro (hfg | hfg); exacts [absurd hfg heint, absurd hfg htx]
  case outputFramed =>
    rw [hout, sentPart_of_not_tx htx, ← sentPart_of_not_tx hp, hcfg]
    exact h.outputFramed

/-- `SNAP` builds the frame of the live record and sends nothing (rules R192 and R193). -/
theorem Inv.of_snap {s : State} (h : Inv s) (hfg : s.fg = .snap) :
    Inv { s with buf := layRecord s.cfg.endian (liveRecord s) s.buf, fg := .eint } where
  cfgLegal := h.cfgLegal
  bufCanonical := wf_layRecord _ _ h.bufCanonical
  bufInRange cell hcell := (mem_layRecord (liveRecord_fits s) hcell).elim id (h.bufInRange cell)
  gieOfPhase := by rw [h.gieOfPhase, hfg]; rfl
  idxBounded := h.idxBounded
  idxInFrame hphase := nomatch hphase
  frameBuilt _ := ⟨_, liveRecord s, readBytes_layRecord _ (liveRecord_fits s) _, liveRecord_fits s, rfl⟩
  outputFramed := by
    rw [sentPart_of_not_tx Phase.noConfusion, ← sentPart_of_not_tx (s := s) (by rw [hfg]; decide)]
    exact h.outputFramed

/-- The `SNAP` of the generation answers that state. -/
theorem Inv.exec_snapOf {s t : State} (h : Inv s) (hfg : s.fg = .snap) (hexec : exec (snapOf s.cfg.gen) s = .next t) :
    Inv t := by
  rw [exec_snapOf_of_phase hfg] at hexec
  exact Host.Outcome.next.inj hexec ▸ h.of_snap hfg

/-- `EINT` starts the transmission of the frame built, none of it sent yet (rule R194). -/
theorem Inv.of_eint {s : State} (h : Inv s) (hfg : s.fg = .eint) :
    Inv { s with gie := true, txIdx := 0, fg := .tx } where
  cfgLegal := h.cfgLegal
  bufCanonical := h.bufCanonical
  bufInRange := h.bufInRange
  gieOfPhase := rfl
  idxBounded := Nat.zero_le _
  idxInFrame _ := frameLen_pos s.cfg
  frameBuilt _ := h.frameBuilt (.inl hfg)
  outputFramed := by
    obtain ⟨f, -, hframe, -⟩ := h.frameBuilt (.inl hfg)
    obtain ⟨rs, hrs, hout⟩ := h.outputFramed
    have hsent := sentPart_of_tx (s := { s with gie := true, txIdx := 0, fg := .tx }) rfl hframe
    refine ⟨rs, hrs, ?_⟩
    rw [sentPart_of_not_tx (by rw [hfg]; decide)] at hout
    rw [hsent, List.take_zero, ← hout]

/-- After `TXB` the output is again whole frames and the sent part of the one in the buffer: the last byte of a frame
completes it, any other lengthens its sent part by one (rules R211 and R213). -/
theorem outputFramed_transmit {s : State} {b : Byte} (h : Inv s) (hfg : s.fg = .tx)
    (hb : Memory.read s.buf s.txIdx = some b) :
    ∃ rs : List FrameRecord, (∀ r ∈ rs, r.fits s.cfg.gen = true) ∧
      s.txOut ++ [b] = rs.flatMap (frameBytes s.cfg.endian) ++ sentPart (transmit b s) := by
  obtain ⟨f, r, hframe, hfits, rfl⟩ := h.frameBuilt (.inr hfg)
  obtain ⟨rs, hrs, hout⟩ := h.outputFramed
  have hidx := h.idxInFrame hfg
  have hget : (frameBytes s.cfg.endian r)[s.txIdx]? = some b := by rw [← read_of_frameInBuffer hframe hidx, hb]
  have hgrow : s.txOut ++ [b] =
      rs.flatMap (frameBytes s.cfg.endian) ++ (frameBytes s.cfg.endian r).take (s.txIdx + 1) := by
    rw [hout, sentPart_of_tx hfg hframe, List.append_assoc, List.take_add_one, hget, Option.toList_some]
  by_cases hlast : s.txIdx + 1 = s.cfg.frameLen
  case pos =>
    have hsent : sentPart (transmit b s) = [] :=
      sentPart_of_not_tx (by rw [transmit_fg, if_pos hlast]; decide)
    refine ⟨rs ++ [r], ?_, ?_⟩
    · simpa [or_imp, forall_and] using ⟨hrs, hfits⟩
    · rw [hgrow, hsent, hlast, ← length_of_frameInBuffer hframe, List.take_length]
      simp
  case neg =>
    have hsent : sentPart (transmit b s) = (frameBytes s.cfg.endian r).take (s.txIdx + 1) :=
      sentPart_of_tx (by rw [transmit_fg, if_neg hlast, hfg]) hframe
    exact ⟨rs, hrs, by rw [hgrow, hsent]⟩

/-- `TXB` keeps the invariant (rule R211). -/
theorem Inv.of_transmit {s : State} {b : Byte} (h : Inv s) (hfg : s.fg = .tx)
    (hb : Memory.read s.buf s.txIdx = some b) : Inv (transmit b s) where
  cfgLegal := h.cfgLegal
  bufCanonical := h.bufCanonical
  bufInRange := h.bufInRange
  gieOfPhase := by
    rw [transmit_gie, transmit_fg, h.gieOfPhase, hfg]
    split <;> rfl
  idxBounded := h.idxInFrame hfg
  idxInFrame hphase := by
    rw [transmit_fg] at hphase
    split at hphase
    case isTrue => cases hphase
    case isFalse hlast => exact lt_of_le_of_ne (h.idxInFrame hfg) hlast
  frameBuilt _ := h.frameBuilt (.inr hfg)
  outputFramed := outputFramed_transmit h hfg hb

/-- No foreground operation breaks the invariant. -/
theorem Inv.exec_foreground {i : Instr} {s t : State} (h : Inv s) (hi : i.agent = some .foreground)
    (hexec : exec i s = .next t) : Inv t := by
  have hgie := h.gieOfPhase
  cases i
  case boot =>
    obtain ⟨hfg, rfl⟩ := execBoot_next hexec
    exact h.of_phase (q := .sleep) hfg rfl (by decide) (by decide) rfl rfl rfl rfl rfl
  case sleep =>
    obtain ⟨hfg, -, rfl⟩ := execSleep_next hexec
    rw [hfg] at hgie
    exact h.of_phase (q := .take) hfg rfl (by decide) (by decide) rfl rfl rfl rfl hgie
  case mbTake =>
    obtain ⟨hfg, _, _, _, _, _, -, rfl⟩ := execMbTake_frame hexec
    rw [hfg] at hgie
    cases hready : s.mbReady
    case false => exact h.of_phase (q := .dint) hfg rfl (by decide) (by decide) rfl rfl rfl rfl hgie
    case true => exact h.of_phase (q := .clear) hfg rfl (by decide) (by decide) rfl rfl rfl rfl hgie
  case mbClear =>
    obtain ⟨hfg, rfl⟩ := execMbClear_next hexec
    rw [hfg] at hgie
    exact h.of_phase (q := .dint) hfg rfl (by decide) (by decide) rfl rfl rfl rfl hgie
  case dint =>
    obtain ⟨hfg, rfl⟩ := execDint_next hexec
    exact h.of_phase (q := .snap) hfg rfl (by decide) (by decide) rfl rfl rfl rfl rfl
  case snap =>
    obtain ⟨hgen, hfg, -⟩ := execSnap_next hexec
    exact h.exec_snapOf hfg (by rw [hgen]; exact hexec)
  case snapLegacy =>
    obtain ⟨hgen, hfg, -⟩ := execSnapLegacy_next hexec
    exact h.exec_snapOf hfg (by rw [hgen]; exact hexec)
  case eint =>
    obtain ⟨hfg, rfl⟩ := execEint_next hexec
    exact h.of_eint hfg
  case txb =>
    obtain ⟨hfg, -, -, b, hb, rfl⟩ := execTxb_next hexec
    exact h.of_transmit hfg hb
  all_goals cases hi

/-- No operation of an agent breaks the invariant. -/
theorem Inv.exec_agent {i : Instr} {s t : State} (h : Inv s) (hi : i.agent ≠ none) (hexec : exec i s = .next t) :
    Inv t := by
  rcases hagent : i.agent with - | - | - | -
  · exact absurd hagent hi
  · exact h.of_sameForegroundRegisters (exec_environment_sameForegroundRegisters hagent hexec)
  · exact h.of_sameForegroundRegisters (exec_handler_sameForegroundRegisters hagent hexec)
  · exact h.exec_foreground hagent hexec

/-- The choice of the next operation keeps the invariant. -/
theorem Inv.afterChoice {s : State} (h : Inv s) : Inv (afterChoice s) :=
  h.of_sameForegroundRegisters ⟨rfl, rfl, rfl, rfl, rfl, rfl⟩

/-- Settles O59: the operation chosen has an agent if it runs, and if it does not, only the choice is used up. -/
theorem stepKeepsInvariant : Obligations.StepKeepsInvariant := by
  intro s t h hstep
  obtain ⟨hcan, hexec⟩ | ⟨-, rfl⟩ := step_cases hstep
  · exact h.afterChoice.exec_agent (agent_of_canStep hcan) hexec
  · exact h.afterChoice

/-! ## Progress -/

/-- `TXB` where it is enabled and the byte has been written (rule R211). -/
theorem exec_txb_of_read {s : State} {b : Byte} (hfg : s.fg = .tx) (hrdy : s.txRdy = true)
    (hidx : s.txIdx < s.cfg.frameLen) (hb : Memory.read s.buf s.txIdx = some b) :
    exec .txb s = .next (transmit b s) := by
  have henabled : txbEnabled s = true := Bool.and_eq_true_iff.2 ⟨atPhase_iff.2 hfg, hrdy⟩
  rw [exec, execTxb, bufferByte_eq_byte_iff.2 ⟨hidx, hb⟩]
  exact foregroundStep_next_iff.2 ⟨henabled, rfl⟩

/-- Under the invariant an enabled `TXB` finds its byte, so neither of its faults happens (rules R61 and U11). -/
theorem Inv.exec_txb {s : State} (h : Inv s) (hcan : canStep .txb s = true) : ∃ t, exec .txb s = .next t := by
  obtain ⟨hphase, hrdy⟩ := Bool.and_eq_true_iff.1 hcan
  have hfg := atPhase_iff.1 hphase
  have hidx := h.idxInFrame hfg
  obtain ⟨f, r, hframe, -⟩ := h.frameBuilt (.inr hfg)
  obtain ⟨b, hb, -⟩ := exists_byte_of_frameInBuffer hframe hidx
  exact ⟨_, exec_txb_of_read hfg hrdy hidx hb⟩

/-- Settles O60: an enabled operation other than `TXB` always steps, and `TXB` does under the invariant. -/
theorem invariantStepAnswersNext : Obligations.InvariantStepAnswersNext := by
  intro s h
  unfold step
  split
  case isFalse => exact ⟨_, rfl⟩
  case isTrue hcan =>
    by_cases htxb : scheduled s = .txb
    · rw [htxb] at hcan ⊢
      exact h.afterChoice.exec_txb hcan
    · exact exec_of_canStep hcan htxb

/-! ## Power-on -/

/-- Settles O58: at power-on the buffer is empty, nothing is sent, and the phase is `F_BOOT` with interrupts off. -/
theorem powerOnMeetsInvariant : Obligations.PowerOnMeetsInvariant := by
  have hpowerOn (c : Cfg) (x : PowerOn) (sched : List Instr) (hc : c.wf = true) : Inv (State.powerOn c x sched) :=
    { cfgLegal := hc
      bufCanonical := List.Pairwise.nil
      bufInRange := fun _ hcell => nomatch hcell
      gieOfPhase := rfl
      idxBounded := Nat.zero_le _
      idxInFrame := fun hfg => nomatch hfg
      frameBuilt := fun hfg => by obtain hfg | hfg := hfg <;> cases hfg
      outputFramed := ⟨[], List.forall_mem_nil _, rfl⟩ }
  exact ⟨hpowerOn, hpowerOn Cfg.default PowerOn.zero [] (by decide)⟩

end Sys2Proof.Machine
end

section
/-! The frame on the wire (rule R213): one ready-and-send pair after another puts the buffer's bytes on the output. -/

namespace Sys2Proof.Machine

/-- A step of a chosen operation that runs. -/
theorem step_of_exec {s t : State} {i : Instr} {is : List Instr} (hs : s.schedule = i :: is)
    (hcan : canStep i s = true) (hexec : exec i { s with schedule := is } = .next t) : step s = .next t :=
  (step_of_enabled hs hcan).trans hexec

/-- One ready-and-send pair puts the byte at `tx_idx` on the wire (rules R211 and R212). -/
theorem runSteps_sendByte {s : State} {b : Byte} {is : List Instr} (n : Nat) (hfg : s.fg = .tx)
    (hidx : s.txIdx < s.cfg.frameLen) (hb : Memory.read s.buf s.txIdx = some b)
    (hs : s.schedule = .txrdy :: .txb :: is) :
    runSteps (n + 2) s = runSteps n (transmit b { s with txRdy := true, schedule := is }) := by
  have hready : step s = .next { s with txRdy := true, schedule := .txb :: is } := step_of_exec hs rfl rfl
  have hsend : step { s with txRdy := true, schedule := .txb :: is } =
      .next (transmit b { s with txRdy := true, schedule := is }) :=
    step_of_exec rfl (Bool.and_eq_true_iff.2 ⟨atPhase_iff.2 hfg, rfl⟩) (exec_txb_of_read hfg rfl hidx hb)
  rw [runSteps_succ hready, runSteps_succ hsend]

/-- `n` ready-and-send pairs. -/
def sendPairs (n : Nat) : List Instr := (List.replicate n [Instr.txrdy, Instr.txb]).flatten

theorem sendPairs_succ (n : Nat) : sendPairs (n + 1) = .txrdy :: .txb :: sendPairs n := by
  rw [sendPairs, List.replicate_succ, List.flatten_cons]
  rfl

/-- From offset `tx_idx` on, as many pairs as bytes are left send them in order and end the phase (rule R213). -/
theorem runSteps_sendRest {f : List Byte} {rest : List Instr} (k : Nat) {s : State} (hfg : s.fg = .tx)
    (hframe : frameInBuffer s = some f) (hk : s.txIdx + (k + 1) = s.cfg.frameLen)
    (hs : s.schedule = sendPairs (k + 1) ++ rest) :
    ∃ t, runSteps (2 * (k + 1)) s = .next t ∧ t.txOut = s.txOut ++ f.drop s.txIdx ∧ t.fg = .sleep ∧
      t.txIdx = s.cfg.frameLen ∧ t.gie = s.gie ∧ t.buf = s.buf ∧ t.schedule = rest := by
  induction k generalizing s with
  | zero =>
    obtain ⟨b, hb, hdrop⟩ := exists_byte_of_frameInBuffer hframe (k := s.txIdx) (by omega)
    rw [List.drop_of_length_le (i := s.txIdx + 1) (by rw [length_of_frameInBuffer hframe]; omega)] at hdrop
    exact ⟨_, runSteps_sendByte 0 hfg (by omega) hb hs, by rw [hdrop]; rfl, if_pos hk, hk, rfl, rfl, rfl⟩
  | succ k ih =>
    obtain ⟨b, hb, hdrop⟩ := exists_byte_of_frameInBuffer hframe (k := s.txIdx) (by omega)
    rw [sendPairs_succ] at hs
    obtain ⟨t, hrun, hout, hend⟩ := ih
      (s := transmit b { s with txRdy := true, schedule := sendPairs (k + 1) ++ rest })
      ((if_neg (show s.txIdx + 1 ≠ s.cfg.frameLen by omega)).trans hfg) hframe
      (show s.txIdx + 1 + (k + 1) = s.cfg.frameLen by omega) rfl
    refine ⟨t, (runSteps_sendByte _ hfg (by omega) hb hs).trans hrun, ?_, hend⟩
    rw [hout, hdrop, transmit_txOut, transmit_txIdx, List.append_assoc, List.singleton_append]

/-- Settles O42: `EINT` puts the index at 0, from where all of the frame is left to send. -/
theorem frameOnTheWire : Obligations.FrameOnTheWire := by
  intro s f rest hfg hframe hs
  have heint : step s = .next
      { s with gie := true, txIdx := 0, fg := .tx, schedule := sendPairs s.cfg.frameLen ++ rest } :=
    step_of_exec hs (atPhase_iff.2 hfg) (foregroundStep_of_phase hfg)
  obtain ⟨k, hk⟩ := Nat.exists_eq_succ_of_ne_zero (frameLen_pos s.cfg).ne'
  obtain ⟨t, hrun, hout, hend⟩ := runSteps_sendRest (rest := rest) k
    (s := { s with gie := true, txIdx := 0, fg := .tx, schedule := sendPairs s.cfg.frameLen ++ rest }) rfl hframe
    (by rw [Nat.zero_add]; exact hk.symm) (by rw [← Nat.succ_eq_add_one, ← hk])
  refine ⟨t, ?_, hout, hend⟩
  rw [Nat.add_comm, runSteps_succ heint, ← hrun, hk]

end Sys2Proof.Machine
end

section
/-! The clock laws (rules R158, R159 and R195): the extension word together with the wrap still pending, and the
counter, each said operation by operation and added up over a run. -/

namespace Sys2Proof.Machine

/-! ## Clocks as numbers -/

/-- The extension word with the wrap that `ISR_OVF` has still to count. -/
def countedHigh (s : State) : Int := s.high.toNat + (if s.ifgOvf then 1 else 0)

/-- The logical clock as a number (rule R30). -/
theorem clockNow_eq (s : State) : clockNow s = s.high.toNat * s.cfg.counterRange + s.low.toNat := by
  rw [clockNow, logicalClock_toNat, Nat.cast_add, Nat.cast_mul]

/-- A pending wrap counts for one in the extension word, and so for one period in the clock. -/
theorem countedClock_eq (s : State) : countedClock s = countedHigh s * s.cfg.counterRange + s.low.toNat := by
  rw [countedClock, clockNow_eq, countedHigh]
  split <;> ring

/-- The same, with the parameters of another state of the run. -/
theorem clockNow_eq_of_cfg {t : State} {c : Cfg} (h : t.cfg = c) :
    clockNow t = t.high.toNat * c.counterRange + t.low.toNat := by
  subst h; exact clockNow_eq t

theorem countedClock_eq_of_cfg {t : State} {c : Cfg} (h : t.cfg = c) :
    countedClock t = countedHigh t * c.counterRange + t.low.toNat := by
  subst h; exact countedClock_eq t

theorem countedHigh_of_not_pending {s : State} (h : s.ifgOvf = false) : countedHigh s = s.high.toNat := by
  rw [countedHigh, h]; exact add_zero _

theorem countedClock_of_not_pending {s : State} (h : s.ifgOvf = false) : countedClock s = clockNow s := by
  rw [countedClock_eq, countedHigh_of_not_pending h, clockNow_eq]

/-- A change of the extension word modulo its range is one of the clock modulo the clock's (rule R30). -/
theorem clock_modEq_of_high {c : Cfg} {x y : Int} (h : x ≡ y [ZMOD (2 ^ c.extW : Nat)]) (l : Int) :
    x * c.counterRange + l ≡ y * c.counterRange + l [ZMOD c.clockRange] := by
  have hrange : (c.clockRange : Int) = (2 ^ c.extW : Nat) * c.counterRange := by
    rw [Cfg.clockRange, Cfg.counterRange, Nat.pow_add, Nat.cast_mul]
  rw [hrange]
  exact (h.mul_right' (c := (c.counterRange : Int))).add_right l

/-- One count up is +1 modulo the register's range, read unsigned (rule R157). -/
theorem toNat_add_one_modEq {w : Nat} (x : BitVec w) : ((x + 1).toNat : Int) ≡ x.toNat + 1 [ZMOD (2 ^ w : Nat)] := by
  have hone : (1 : BitVec w).toNat = 1 % 2 ^ w := BitVec.toNat_ofNat 1 w
  rw [BitVec.toNat_add, hone]
  simp [Int.ModEq]

/-! ## One operation -/

/-- The tick raises the overflow flag exactly from the maximum value (rule R152). -/
theorem execTick_ifgOvf {s t : State} (h : execTick s = .next t) : t.ifgOvf = (s.ifgOvf || atMaximum s) := by
  rw [Bool.eq_iff_iff, execTick_ifgOvf_iff h, Bool.or_eq_true_iff, ← add_one_eq_zero_iff_toNat, add_one_eq_zero_iff,
    atMaximum, beq_iff_eq]

/-- A tick is counted by the extension word when it wraps the counter and no wrap is pending (rules R152 and R159). -/
theorem execTick_countedHigh {s t : State} (h : execTick s = .next t) :
    countedHigh t = countedHigh s + (if atMaximum s = true ∧ s.ifgOvf = false then 1 else 0) := by
  have hflag := execTick_ifgOvf h
  have hhigh : t.high.toNat = s.high.toNat := by rw [execTick_next h]
  rw [countedHigh, countedHigh, hhigh, hflag]
  cases s.ifgOvf <;> cases atMaximum s <;> simp

/-- A tick adds one to the counter, and takes a period off it when it wraps (rule R151). -/
theorem execTick_low {s t : State} (h : execTick s = .next t) :
    (t.low.toNat : Int) = s.low.toNat + 1 - (if atMaximum s = true then (s.cfg.counterRange : Int) else 0) := by
  have hlow : t.low.toNat = (s.low + 1).toNat := by rw [execTick_next h]
  split
  case isTrue hmax =>
    have hrange := (atMaximum_iff s).1 hmax
    rw [hlow, toNat_add_one_of_max _ hrange, ← hrange]
    push_cast
    ring
  case isFalse hmax =>
    have hrange := mt (atMaximum_iff s).2 hmax
    have hlt : s.low.toNat + 1 < 2 ^ s.cfg.cntW := lt_of_le_of_ne s.low.isLt hrange
    rw [hlow, toNat_add_one_of_lt _ hlt]
    push_cast
    ring

/-- `ISR_OVF` counts the wrap that was pending (rule R155). -/
theorem execIsrOvf_countedHigh {s t : State} (h : execIsrOvf s = .next t) :
    countedHigh t ≡ countedHigh s [ZMOD (2 ^ s.cfg.extW : Nat)] := by
  obtain ⟨henabled, rfl⟩ := execIsrOvf_next h
  have hpending : s.ifgOvf = true := (Bool.and_eq_true_iff.1 henabled).2
  rw [countedHigh_of_not_pending rfl, countedHigh, if_pos hpending]
  exact toNat_add_one_modEq s.high

/-- Apart from the tick, the overflow handler and the boot no operation moves a clock (rule R46). -/
theorem exec_clock_frame {i : Instr} {s t : State} (hi : i.agent ≠ none) (htick : i ≠ .tick) (hisr : i ≠ .isrOvf)
    (hboot : i ≠ .boot) (h : exec i s = .next t) :
    t.high.toNat = s.high.toNat ∧ t.low.toNat = s.low.toNat ∧ t.ifgOvf = s.ifgOvf := by
  obtain ⟨-, -, -, -, -, -, -, hlow, hhigh, -⟩ := writersOfRegisters i s t hi h
  exact ⟨not_imp_comm.1 hhigh hisr, not_imp_comm.1 hlow htick, exec_ifgOvf_frame h htick hisr hboot⟩

/-- The extension word with its pending wrap gains one with each wrap that is not lost, and by nothing else (rules R155
and R159). -/
theorem exec_countedHigh {i : Instr} {s t : State} (hi : i.agent ≠ none) (hboot : i ≠ .boot)
    (h : exec i s = .next t) :
    countedHigh t ≡ countedHigh s + (if i = .tick ∧ atMaximum s = true ∧ s.ifgOvf = false then 1 else 0)
      [ZMOD (2 ^ s.cfg.extW : Nat)] := by
  by_cases htick : i = .tick
  · subst htick
    rw [execTick_countedHigh h]
    simp only [true_and]
    exact Int.ModEq.refl _
  · rw [if_neg (fun hand => htick hand.1), add_zero]
    by_cases hisr : i = .isrOvf
    · subst hisr
      exact execIsrOvf_countedHigh h
    · obtain ⟨hhigh, -, hflag⟩ := exec_clock_frame hi htick hisr hboot h
      rw [countedHigh, countedHigh, hhigh, hflag]

/-- The counter gains one with each tick, less a period with each wrap, and by nothing else (rule R151). -/
theorem exec_low {i : Instr} {s t : State} (hi : i.agent ≠ none) (h : exec i s = .next t) :
    (t.low.toNat : Int) = s.low.toNat + (if i = .tick then 1 else 0) -
      (if i = .tick ∧ atMaximum s = true then (s.cfg.counterRange : Int) else 0) := by
  by_cases htick : i = .tick
  · subst htick
    rw [execTick_low h]
    simp only [if_true, true_and]
  · obtain ⟨-, -, -, -, -, -, -, hlow, -⟩ := writersOfRegisters i s t hi h
    rw [not_imp_comm.1 hlow htick, if_neg htick, if_neg (fun hand => htick hand.1), add_zero, sub_zero]

/-- Settles O56: a wrap takes one period off the counter and puts one in the extension word, unless one is pending
already. -/
theorem lostOverflowCostsOnePeriod : Obligations.LostOverflowCostsOnePeriod := by
  intro i s t hi hboot h
  have hhigh := clock_modEq_of_high (exec_countedHigh hi hboot h) t.low.toNat
  rw [countedClock_eq_of_cfg (exec_cfg h), countedClock_eq s]
  convert hhigh using 1
  rw [exec_low hi h]
  by_cases htick : i = .tick
  · cases hmax : atMaximum s <;> cases hflag : s.ifgOvf <;> simp [htick] <;> ring
  · simp [htick]

/-! ## One step -/

/-- The foreground never returns to `F_BOOT` (rule R240). -/
theorem step_fg_ne_boot {s t : State} (hfg : s.fg ≠ .boot) (h : step s = .next t) : t.fg ≠ .boot := by
  obtain ⟨-, hexec⟩ | ⟨-, rfl⟩ := step_cases h
  · by_cases hagent : (scheduled s).agent = some .foreground
    · intro hboot
      have hfollows := exec_foreground_follows hagent hexec
      rw [hboot] at hfollows
      cases hphase : (afterChoice s).fg <;> rw [hphase] at hfollows <;> cases hfollows
    · rw [exec_fg_of_not_foreground hagent hexec]
      exact hfg
  · exact hfg

/-- Out of `F_BOOT` a step is no `BOOT`: what it does to the clocks is what the chosen operation does, a `TICK` being
always enabled. -/
theorem step_exec_or_wait {s t : State} (hfg : s.fg ≠ .boot) (h : step s = .next t) :
    ((scheduled s).agent ≠ none ∧ scheduled s ≠ .boot ∧ exec (scheduled s) (afterChoice s) = .next t) ∨
    (scheduled s ≠ .tick ∧ t = afterChoice s) := by
  obtain ⟨hcan, hexec⟩ | ⟨hcan, rfl⟩ := step_cases h
  · refine .inl ⟨agent_of_canStep hcan, fun hboot => ?_, hexec⟩
    rw [hboot] at hcan
    exact hfg (atPhase_iff.1 hcan)
  · refine .inr ⟨fun htick => ?_, rfl⟩
    rw [htick] at hcan
    cases hcan

theorem wrapsNow_iff (s : State) : wrapsNow s = true ↔ scheduled s = .tick ∧ atMaximum s = true := by
  rw [wrapsNow, Bool.and_eq_true_iff, beq_iff_eq]

/-- While no overflow is lost, a step adds to the extension word the wrap it makes (rule R158). -/
theorem step_countedHigh {s t : State} (hfg : s.fg ≠ .boot) (hkeep : losesOverflow s = false) (h : step s = .next t) :
    countedHigh t ≡ countedHigh s + (if wrapsNow s then 1 else 0) [ZMOD (2 ^ s.cfg.extW : Nat)] := by
  have hlost : wrapsNow s = true → s.ifgOvf = false := fun hwraps => by
    rwa [losesOverflow, hwraps, Bool.true_and] at hkeep
  obtain ⟨hi, hboot, hexec⟩ | ⟨htick, rfl⟩ := step_exec_or_wait hfg h
  · have hcond : (scheduled s = .tick ∧ atMaximum (afterChoice s) = true ∧ (afterChoice s).ifgOvf = false) ↔
        wrapsNow s = true := by
      rw [atMaximum_afterChoice, afterChoice_ifgOvf, ← and_assoc, ← wrapsNow_iff]
      exact and_iff_left_of_imp hlost
    have hstep := exec_countedHigh hi hboot hexec
    simp only [hcond] at hstep
    exact hstep
  · rw [if_neg (fun hwraps => htick ((wrapsNow_iff s).1 hwraps).1), add_zero]
    rfl

/-- While no overflow is lost, a step adds to the counted clock the tick it is (rule R158). -/
theorem step_countedClock {s t : State} (hfg : s.fg ≠ .boot) (hkeep : losesOverflow s = false)
    (h : step s = .next t) :
    countedClock t ≡ countedClock s + (if scheduled s = .tick then 1 else 0) [ZMOD s.cfg.clockRange] := by
  obtain ⟨hi, hboot, hexec⟩ | ⟨htick, rfl⟩ := step_exec_or_wait hfg h
  · have hcond : ¬(scheduled s = .tick ∧ atMaximum (afterChoice s) = true ∧ (afterChoice s).ifgOvf = true) := by
      rintro ⟨htick, hmax, hflag⟩
      rw [losesOverflow, (wrapsNow_iff s).2 ⟨htick, hmax⟩] at hkeep
      exact Bool.false_ne_true (hkeep.symm.trans hflag)
    have hstep := lostOverflowCostsOnePeriod _ _ _ hi hboot hexec
    rw [if_neg hcond, Nat.cast_zero, sub_zero] at hstep
    exact hstep
  · rw [if_neg htick, add_zero]
    rfl

/-! ## A run -/

/-- A run of one step and more, from its first step. -/
theorem runSteps_succ_next {n : Nat} {s t : State} (h : runSteps (n + 1) s = .next t) :
    ∃ u, step s = .next u ∧ runSteps n u = .next t := by
  cases hstep : step s with
  | next u => exact ⟨u, rfl, by rwa [runSteps_succ hstep] at h⟩
  | fault f => simp only [runSteps, hstep] at h; cases h
  | refused r => simp only [runSteps, hstep] at h; cases h

theorem wraps_succ {n : Nat} {s u : State} (h : step s = .next u) :
    wraps (n + 1) s = (if wrapsNow s then 1 else 0) + wraps n u := by
  simp only [wraps, h]

theorem keepsOverflows_succ {n : Nat} {s u : State} (h : step s = .next u) :
    keepsOverflows (n + 1) s ↔ losesOverflow s = false ∧ keepsOverflows n u := by
  simp only [keepsOverflows, h]

/-- Over a run that loses no overflow the extension word, with the wrap still pending, gains the number of wraps. -/
theorem runSteps_countedHigh {n : Nat} {s t : State} (hfg : s.fg ≠ .boot) (hkeep : keepsOverflows n s)
    (h : runSteps n s = .next t) : countedHigh t ≡ countedHigh s + wraps n s [ZMOD (2 ^ s.cfg.extW : Nat)] := by
  induction n generalizing s with
  | zero => cases h; simp [wraps, Int.ModEq.refl]
  | succ n ih =>
    obtain ⟨u, hstep, hrun⟩ := runSteps_succ_next h
    obtain ⟨hnow, hlater⟩ := (keepsOverflows_succ hstep).1 hkeep
    have hrest := ih (step_fg_ne_boot hfg hstep) hlater hrun
    rw [step_cfg hstep] at hrest
    have hfirst := (step_countedHigh hfg hnow hstep).add_right (wraps n u)
    convert hrest.trans hfirst using 1
    rw [wraps_succ hstep]
    push_cast
    ring

/-- Over a run that loses no overflow the counted clock gains the number of ticks. -/
theorem runSteps_countedClock {n : Nat} {s t : State} (hlen : n ≤ s.schedule.length) (hfg : s.fg ≠ .boot)
    (hkeep : keepsOverflows n s) (h : runSteps n s = .next t) :
    countedClock t ≡ countedClock s + (s.schedule.take n).count .tick [ZMOD s.cfg.clockRange] := by
  induction n generalizing s with
  | zero => cases h; simp [Int.ModEq.refl]
  | succ n ih =>
    obtain ⟨u, hstep, hrun⟩ := runSteps_succ_next h
    obtain ⟨hnow, hlater⟩ := (keepsOverflows_succ hstep).1 hkeep
    obtain ⟨i, is, hs⟩ := List.exists_cons_of_length_pos (Nat.zero_lt_of_lt hlen)
    have hsched : u.schedule = is := by rw [step_schedule hstep, hs, List.tail_cons]
    have hrest := ih (by rw [hsched]; rw [hs] at hlen; exact Nat.le_of_succ_le_succ hlen)
      (step_fg_ne_boot hfg hstep) hlater hrun
    rw [step_cfg hstep, hsched] at hrest
    have hfirst := (step_countedClock hfg hnow hstep).add_right ((is.take n).count .tick)
    convert hrest.trans hfirst using 1
    rw [scheduled_cons hs, hs, List.take_succ_cons, List.count_cons]
    simp only [beq_iff_eq]
    push_cast
    ring

/-- Settles O55: with no wrap pending at either end the counted clock is the logical clock, and the sums over the run
are the law's. -/
theorem clockDifferenceLaw : Obligations.ClockDifferenceLaw := by
  refine ⟨clockNow_eq, fun n s t hlen hfg hkeep hrun hs ht => ?_⟩
  have hhigh := runSteps_countedHigh hfg hkeep hrun
  rw [countedHigh_of_not_pending hs, countedHigh_of_not_pending ht] at hhigh
  have hcfg := runSteps_cfg hrun
  refine ⟨?extension, ?wraps, ?ticks⟩
  case extension =>
    have hlt : t.high.toNat < 2 ^ s.cfg.extW := hcfg ▸ t.high.isLt
    have hmod : t.high.toNat ≡ s.high.toNat + wraps n s [MOD 2 ^ s.cfg.extW] := by exact_mod_cast hhigh
    rw [← hmod, Nat.mod_eq_of_lt hlt]
  case wraps =>
    have hclock := (clock_modEq_of_high hhigh t.low.toNat).sub_right (clockNow s)
    rw [clockNow_eq_of_cfg hcfg]
    convert hclock using 1
    rw [clockNow_eq s]
    ring
  case ticks =>
    have hclock := (runSteps_countedClock hlen hfg hkeep hrun).sub_right (countedClock s)
    rwa [countedClock_of_not_pending hs, countedClock_of_not_pending ht, add_sub_cancel_left] at hclock

/-! ## The clock of a frame -/

/-- The clock a frame carries is the one the registers show when it is built (rule R192). -/
theorem recordClock_eq_clockNow {s : State} (h : s.cfg.wf = true) :
    ((recordClock (liveRecord s)).toNat : Int) = clockNow s := by
  rw [recordClock_liveRecord h, clockNow]

/-- `EINT` in its phase (rule R194). -/
theorem exec_eint_of_phase {s : State} (hfg : s.fg = .eint) :
    exec .eint s = .next { s with gie := true, txIdx := 0, fg := .tx } :=
  foregroundStep_of_phase hfg

/-- Settles O57: the frame carries the clock without the pending wrap, which `ISR_OVF` counts only after it. -/
theorem pendingOverflowFrameClock : Obligations.PendingOverflowFrameClock := by
  refine ⟨fun s hwf hfg hflag => ?pending, fun s hwf hfg hflag => ?settled⟩
  case pending =>
    have hsnap := exec_snapOf_of_phase hfg
    refine ⟨_, _, _, _, liveRecord s, hsnap, readBytes_layRecord _ (liveRecord_fits s) _,
      frameDecode_of_frameBytes s.cfg (liveRecord_fits s), exec_eint_of_phase rfl,
      exec_isrOvf_of_pending rfl hflag, ?_⟩
    rw [recordClock_eq_clockNow hwf, clockNow_eq, clockNow_eq s]
    convert clock_modEq_of_high (toNat_add_one_modEq s.high) s.low.toNat using 1
    ring
  case settled =>
    obtain ⟨t, f, hsnap, hframe, hdecode⟩ := exec_snapOf_decodes hfg
    refine ⟨t, f, liveRecord s, hsnap, hframe, hdecode, ?_⟩
    rw [recordClock_eq_clockNow hwf, countedClock_of_not_pending hflag]

end Sys2Proof.Machine
end

section
/-! The tick counters over a run (rules R138 and R146): without an index pulse each step moves both by the same amount,
so the wrapped ticks follow the unwrapped ones modulo their own range. -/

namespace Sys2Proof.Machine

/-- The signed value of a register depends on its number and its width alone. -/
theorem toInt_eq_of_toNat {v w : Nat} (hw : v = w) {x : BitVec v} {y : BitVec w} (h : x.toNat = y.toNat) :
    x.toInt = y.toInt := by
  subst hw
  rw [BitVec.eq_of_toNat_eq h]

/-- A step other than of `ISR_Z` moves both counters by one same amount: 0, +1 or -1 (rules R25 and R138). -/
theorem exec_ticks {i : Instr} {s t : State} (hz : i ≠ .isrZ) (h : exec i s = .next t) :
    ∃ d : Int, t.wt.toInt - s.wt.toInt ≡ d [ZMOD (2 ^ s.cfg.wtW : Nat)] ∧
      t.ut.toInt - s.ut.toInt ≡ d [ZMOD (2 ^ s.cfg.utW : Nat)] := by
  obtain ⟨hcfg, hmoves⟩ := countersMoveTogether i s t h
  have hwtW : t.cfg.wtW = s.cfg.wtW := by rw [hcfg]
  have hutW : t.cfg.utW = s.cfg.utW := by rw [hcfg]
  obtain ⟨hut, hwt⟩ | ⟨-, hut, hwt⟩ | ⟨-, hut, hwt⟩ | ⟨hisr, -⟩ := hmoves
  case inl =>
    rw [toInt_eq_of_toNat hwtW hwt, toInt_eq_of_toNat hutW hut, sub_self, sub_self]
    exact ⟨0, rfl, rfl⟩
  case inr.inl =>
    rw [toInt_eq_of_toNat hwtW hwt, toInt_eq_of_toNat hutW hut]
    exact ⟨1, toInt_add_one_sub _, toInt_add_one_sub _⟩
  case inr.inr.inl =>
    rw [toInt_eq_of_toNat hwtW hwt, toInt_eq_of_toNat hutW hut]
    exact ⟨-1, toInt_sub_one_sub _, toInt_sub_one_sub _⟩
  case inr.inr.inr => exact absurd hisr hz

/-- The range of the narrower counter divides that of the wider (rule R21). -/
theorem two_pow_dvd_two_pow {v w : Nat} (h : v ≤ w) : ((2 ^ v : Nat) : Int) ∣ (2 ^ w : Nat) :=
  Int.natCast_dvd_natCast.2 (Nat.pow_dvd_pow 2 h)

/-- A step that does not run `ISR_Z` changes both counters by the same amount modulo the range of `wt`. -/
theorem step_ticks {s t : State} (hw : s.cfg.wtW ≤ s.cfg.utW) (hz : scheduled s ≠ .isrZ) (h : step s = .next t) :
    t.wt.toInt - s.wt.toInt ≡ t.ut.toInt - s.ut.toInt [ZMOD (2 ^ s.cfg.wtW : Nat)] := by
  obtain ⟨-, hexec⟩ | ⟨-, rfl⟩ := step_cases h
  · obtain ⟨d, hwt, hut⟩ := exec_ticks hz hexec
    exact hwt.trans (hut.of_dvd (two_pow_dvd_two_pow hw)).symm
  · have hwt : (afterChoice s).wt.toInt - s.wt.toInt = 0 := sub_self _
    have hut : (afterChoice s).ut.toInt - s.ut.toInt = 0 := sub_self _
    rw [hwt, hut]

/-- The same over a run whose choices hold no `ISR_Z` (rule R146). -/
theorem runSteps_ticks {n : Nat} {s t : State} (hw : s.cfg.wtW ≤ s.cfg.utW) (hlen : n ≤ s.schedule.length)
    (hz : Instr.isrZ ∉ s.schedule.take n) (h : runSteps n s = .next t) :
    t.wt.toInt - s.wt.toInt ≡ t.ut.toInt - s.ut.toInt [ZMOD (2 ^ s.cfg.wtW : Nat)] := by
  induction n generalizing s with
  | zero => cases h; rw [sub_self, sub_self]
  | succ n ih =>
    obtain ⟨u, hstep, hrun⟩ := runSteps_succ_next h
    obtain ⟨i, is, hs⟩ := List.exists_cons_of_length_pos (Nat.zero_lt_of_lt hlen)
    rw [hs, List.take_succ_cons, List.mem_cons, not_or] at hz
    obtain ⟨hhead, htail⟩ := hz
    have hsched : u.schedule = is := by rw [step_schedule hstep, hs, List.tail_cons]
    have hcfg := step_cfg hstep
    have hfirst := step_ticks hw (by rw [scheduled_cons hs]; exact Ne.symm hhead) hstep
    have hrange : ((2 ^ u.cfg.wtW : Nat) : Int) = (2 ^ s.cfg.wtW : Nat) := by rw [hcfg]
    have hrest := ih (by rw [hcfg]; exact hw)
      (by rw [hsched]; rw [hs] at hlen; exact Nat.le_of_succ_le_succ hlen) (by rw [hsched]; exact htail) hrun
    rw [hrange] at hrest
    have hsum := hrest.add hfirst
    rwa [sub_add_sub_cancel, sub_add_sub_cancel] at hsum

/-- Two numbers of less than half a range's size that agree modulo the range are equal. -/
theorem eq_of_modEq_of_small {w : Nat} (x : BitVec w) {d : Int} (h : x.toInt ≡ d [ZMOD (2 ^ w : Nat)])
    (hd : d.natAbs < 2 ^ (w - 1)) : x.toInt = d := by
  have hlt := BitVec.two_mul_toInt_lt (x := x)
  have hle := BitVec.le_two_mul_toInt (x := x)
  cases w with
  | zero => omega
  | succ w =>
    have hd : |d| < 2 ^ w := by rw [Int.abs_eq_natAbs]; exact_mod_cast hd
    have habs : |d - x.toInt| < (2 ^ (w + 1) : Nat) := by
      rw [abs_lt] at hd ⊢
      push_cast
      omega
    exact (sub_eq_zero.1 (Int.eq_zero_of_abs_lt_dvd h.dvd habs)).symm

/-- Settles O54: the change of `ut` is read modulo its own range, a multiple of the range of `wt`; a change that `wt`
can hold is its value. -/
theorem wrappedTicksFollowUnwrapped : Obligations.WrappedTicksFollowUnwrapped := by
  intro n s t hw hlen hz hrun change
  have hchange : change ≡ t.ut.toInt - s.ut.toInt [ZMOD (2 ^ s.cfg.utW : Nat)] := Int.bmod_emod
  have hdiff : t.wt.toInt - s.wt.toInt ≡ change [ZMOD (2 ^ s.cfg.wtW : Nat)] :=
    (runSteps_ticks hw.le hlen hz hrun).trans (hchange.of_dvd (two_pow_dvd_two_pow hw.le)).symm
  refine ⟨hdiff, fun hzero hsmall => ?_⟩
  have hwtW : t.cfg.wtW = s.cfg.wtW := by rw [runSteps_cfg hrun]
  have hstart : s.wt.toInt = 0 := by rw [hzero]; exact BitVec.toInt_zero
  rw [hstart, sub_zero, ← hwtW] at hdiff
  rw [← hwtW] at hsmall
  exact eq_of_modEq_of_small t.wt hdiff hsmall

end Sys2Proof.Machine
end

section
/-! Handlers enabled at once (rule R298): entry, body and return of one handler against those of another. The bodies of
`ISR_A` and `ISR_Z` both write `wt`; every other two write and read registers of their own. -/

namespace Sys2Proof.Machine

/-! ## Entry and return -/

theorem clearFlag_comm (x y : Source) (s : State) : clearFlag x (clearFlag y s) = clearFlag y (clearFlag x s) := by
  simp only [clearFlag, Bool.and_left_comm]

theorem returnFromHandler_comm (x y : Source) (s : State) :
    returnFromHandler x (returnFromHandler y s) = returnFromHandler y (returnFromHandler x s) := by
  simp only [returnFromHandler, Bool.or_right_comm]

theorem clearFlag_returnFromHandler (x y : Source) (s : State) :
    clearFlag x (returnFromHandler y s) = returnFromHandler y (clearFlag x s) := rfl

/-! ## Bodies -/

/-- The body of `ISR_A` commutes with what neither moves the level latches and `arm` nor reads the ticks. -/
theorem decodeEdge_comm {f : State → State} {s : State}
    (hinputs : edgeCount (f s).arm (f s).pinA (f s).pinB = edgeCount s.arm s.pinA s.pinB)
    (hcount : ∀ up, { countTicks up (f s) with arm := (f s).arm.flip } = f { countTicks up s with arm := s.arm.flip })
    (hglitch : { f s with arm := glitchArm (f s).cfg.glitch (f s).arm } =
      f { s with arm := glitchArm s.cfg.glitch s.arm }) : decodeEdge (f s) = f (decodeEdge s) := by
  cases hedge : edgeCount s.arm s.pinA s.pinB with
  | none => rw [decodeEdge_of_glitch hedge, decodeEdge_of_glitch (hinputs.trans hedge), hglitch]
  | some up => rw [decodeEdge_of_count hedge, decodeEdge_of_count (hinputs.trans hedge), hcount]

/-- The registers that the body of `ISR_RX` reads and writes: the mailbox and the parser (rules R175 and R220). -/
structure Receiver where
  mbByte : Byte
  mbCommand : Command
  mbReady : Bit
  pstate : ParserState
  pOp : Byte
  pPin : Byte

def receiverOf (s : State) : Receiver := ⟨s.mbByte, s.mbCommand, s.mbReady, s.pstate, s.pOp, s.pPin⟩

def withReceiver (r : Receiver) (s : State) : State :=
  { s with
    mbByte := r.mbByte, mbCommand := r.mbCommand, mbReady := r.mbReady
    pstate := r.pstate, pOp := r.pOp, pPin := r.pPin }

/-- What a received byte makes of those registers. -/
def receiverAfter (g : Gen) (b : Byte) (r : Receiver) : Receiver :=
  match g with
  | .legacy => { r with mbByte := b, mbReady := true }
  | .current =>
    let p := cmdParse r.pstate r.pOp r.pPin b
    { mbByte := r.mbByte, mbCommand := p.post.getD r.mbCommand, mbReady := p.post.isSome || r.mbReady
      pstate := p.pstate, pOp := p.pOp, pPin := p.pPin }

/-- The body of `ISR_RX` acts on those registers, from them, the generation and the received byte alone. -/
theorem receiveByte_eq (s : State) :
    receiveByte s = withReceiver (receiverAfter s.cfg.gen s.rxReg (receiverOf s)) s := by
  cases hgen : s.cfg.gen with
  | legacy => rw [receiveByte_of_legacy hgen]; rfl
  | current =>
    rw [receiveByte_of_current hgen]
    simp only [receiverAfter, receiverOf, withReceiver]
    cases (cmdParse s.pstate s.pOp s.pPin s.rxReg).post <;> rfl

/-- The body of `ISR_RX` commutes with what keeps its inputs and does not read what it writes. -/
theorem receiveByte_comm {f : State → State} {s : State} (hgen : (f s).cfg.gen = s.cfg.gen)
    (hbyte : (f s).rxReg = s.rxReg) (hreads : receiverOf (f s) = receiverOf s)
    (hwrites : ∀ r, f (withReceiver r s) = withReceiver r (f s)) : receiveByte (f s) = f (receiveByte s) := by
  rw [receiveByte_eq, receiveByte_eq, hgen, hbyte, hreads, hwrites]

/-- The bodies of `ISR_A` and `ISR_RX` commute. -/
theorem receiveByte_decodeEdge (s : State) : receiveByte (decodeEdge s) = decodeEdge (receiveByte s) := by
  obtain ⟨_, _, _, hframe, -⟩ := decodeEdge_frame s
  exact receiveByte_comm (by rw [hframe]) (by rw [hframe]) (by rw [hframe]; rfl)
    fun r => decodeEdge_comm (f := withReceiver r) rfl (fun _ => rfl) rfl

/-- Two bodies commute unless they are those of `ISR_A` and `ISR_Z` (rule R298). -/
theorem handlerBody_comm {x y : Source} (hne : x ≠ y) (haz : ¬(x = .a ∧ y = .z)) (hza : ¬(x = .z ∧ y = .a))
    (s : State) :
    handlerBody x (handlerBody y s) = handlerBody y (handlerBody x s) := by
  have hovf : decodeEdge (extendClock s) = extendClock (decodeEdge s) := decodeEdge_comm rfl (fun _ => rfl) rfl
  have hcmp : decodeEdge (advanceThreshold s) = advanceThreshold (decodeEdge s) :=
    decodeEdge_comm rfl (fun _ => rfl) rfl
  cases x <;> cases y
  case a.a => exact absurd rfl hne
  case a.z => exact absurd ⟨rfl, rfl⟩ haz
  case a.ovf => exact hovf
  case a.cmp => exact hcmp
  case a.rx => exact (receiveByte_decodeEdge s).symm
  case z.a => exact absurd ⟨rfl, rfl⟩ hza
  case z.z => exact absurd rfl hne
  case z.ovf => rfl
  case z.cmp => rfl
  case z.rx => exact (receiveByte_comm rfl rfl rfl fun _ => rfl).symm
  case ovf.a => exact hovf.symm
  case ovf.z => rfl
  case ovf.ovf => exact absurd rfl hne
  case ovf.cmp => rfl
  case ovf.rx => exact (receiveByte_comm rfl rfl rfl fun _ => rfl).symm
  case cmp.a => exact hcmp.symm
  case cmp.z => rfl
  case cmp.ovf => rfl
  case cmp.cmp => exact absurd rfl hne
  case cmp.rx => exact (receiveByte_comm rfl rfl rfl fun _ => rfl).symm
  case rx.a => exact receiveByte_decodeEdge s
  case rx.z => exact receiveByte_comm rfl rfl rfl fun _ => rfl
  case rx.ovf => exact receiveByte_comm rfl rfl rfl fun _ => rfl
  case rx.cmp => exact receiveByte_comm rfl rfl rfl fun _ => rfl
  case rx.rx => exact absurd rfl hne

/-- A body neither reads nor writes a pending flag. -/
theorem handlerBody_clearFlag (x y : Source) (s : State) :
    handlerBody x (clearFlag y s) = clearFlag y (handlerBody x s) := by
  cases x
  case a => exact decodeEdge_comm rfl (fun _ => rfl) rfl
  case z => rfl
  case ovf => rfl
  case cmp => rfl
  case rx => exact receiveByte_comm rfl rfl rfl fun _ => rfl

/-- A body neither reads nor writes `wake`. -/
theorem handlerBody_returnFromHandler (x y : Source) (s : State) :
    handlerBody x (returnFromHandler y s) = returnFromHandler y (handlerBody x s) := by
  cases x
  case a => exact decodeEdge_comm rfl (fun _ => rfl) rfl
  case z => rfl
  case ovf => rfl
  case cmp => rfl
  case rx => exact receiveByte_comm rfl rfl rfl fun _ => rfl

/-! ## Two handlers, one after the other -/

/-- A handler's whole step, entry to return. -/
def handlerStep (x : Source) (s : State) : State := returnFromHandler x (handlerBody x (clearFlag x s))

theorem exec_handlerOf_eq_handlerStep {x : Source} {s : State} (h : handlerEnabled x s = true) :
    exec (handlerOf x) s = .next (handlerStep x s) :=
  exec_handlerOf_of_enabled h

/-- Two handlers one after the other are both entries, both bodies and both returns. -/
theorem handlerStep_handlerStep (x y : Source) (s : State) :
    handlerStep x (handlerStep y s) =
      returnFromHandler x (returnFromHandler y (handlerBody x (handlerBody y (clearFlag x (clearFlag y s))))) := by
  rw [handlerStep, handlerStep, clearFlag_returnFromHandler, handlerBody_returnFromHandler, ← handlerBody_clearFlag]

theorem handlerStep_comm {x y : Source} (hne : x ≠ y) (haz : ¬(x = .a ∧ y = .z)) (hza : ¬(x = .z ∧ y = .a))
    (s : State) :
    handlerStep x (handlerStep y s) = handlerStep y (handlerStep x s) := by
  rw [handlerStep_handlerStep, handlerStep_handlerStep, returnFromHandler_comm, handlerBody_comm hne haz hza,
    clearFlag_comm]

/-- A handler leaves another source's handler enabled (rule R298). -/
theorem handlerEnabled_handlerStep {x y : Source} (hne : x ≠ y) {s : State} (h : handlerEnabled y s = true) :
    handlerEnabled y (handlerStep x s) = true := by
  obtain ⟨hgie, hflag⟩ := Bool.and_eq_true_iff.1 h
  refine Bool.and_eq_true_iff.2 ⟨?_, ?_⟩
  · obtain ⟨_, _, _, _, _, _, _, _, _, _, _, hframe⟩ := handlerBody_frame x (clearFlag x s)
    rw [handlerStep, hframe]
    exact hgie
  · rw [handlerStep, pending_returnFromHandler, pending_handlerBody, pending_clearFlag, bne_iff_ne.2 hne, hflag]
    rfl

/-- Settles O14: each handler leaves the other enabled, and their two steps commute. -/
theorem independentHandlersCommute : Obligations.IndependentHandlersCommute := by
  intro x y s hne haz hza hx hy
  have hyx := handlerEnabled_handlerStep hne hy
  have hxy := handlerEnabled_handlerStep hne.symm hx
  refine ⟨_, _, _, exec_handlerOf_eq_handlerStep hx, exec_handlerOf_eq_handlerStep hy,
    exec_handlerOf_eq_handlerStep hyx, ?_⟩
  rw [exec_handlerOf_eq_handlerStep hxy, handlerStep_comm hne haz hza]

end Sys2Proof.Machine
end

section
/-! The command mailbox (rules R171, R175 to R181, R220 to R222 and R261): a received byte that is served at once, a
whole command of four of them, and what `MB_TAKE` makes of the mailbox. -/

namespace Sys2Proof.Machine

/-! ## The parser -/

/-- Where a byte other than the start byte takes the parser (rule R221). -/
def parserAfterOther : ParserState → ParserState
  | .awaitStart => .awaitStart
  | .awaitFlag => .awaitPin
  | .awaitPin => .awaitValue
  | .awaitValue => .awaitStart

theorem cmdParse_pstate_of_ne {b : Byte} (h : b ≠ 0xA9) (st : ParserState) (op pin : Byte) :
    (cmdParse st op pin b).pstate = parserAfterOther st := by
  cases st
  case awaitStart => exact if_neg h
  case awaitFlag => rfl
  case awaitPin => rfl
  case awaitValue => rfl

/-- Settles O35: from each parser state the longest way back to `AWAIT_START`, where other bytes leave it, has three
bytes. -/
theorem threeBytesRecoverParser : Obligations.ThreeBytesRecoverParser := by
  intro st op pin b₁ b₂ b₃ h₁ h₂ h₃ r₁ r₂
  rw [cmdParse_pstate_of_ne h₃, cmdParse_pstate_of_ne h₂, cmdParse_pstate_of_ne h₁]
  cases st <;> rfl

/-- Settles O12: the parser's table, row by row, inside the handler. -/
theorem currentReceiveParsesByte : Obligations.CurrentReceiveParsesByte := by
  intro s hgen hgie hflag
  rw [exec_isrRx_of_pending hgie hflag, receiveByte_of_current (s := clearFlag .rx s) hgen]
  cases hparser : s.pstate <;> simp only [clearFlag_pstate, hparser]
  case awaitStart =>
    by_cases hstart : s.rxReg = 0xA9
    · simp only [clearFlag_rxReg, cmdParse, Config.cmdStart, hstart, if_true]
      rfl
    · simp only [clearFlag_rxReg, cmdParse, Config.cmdStart, hstart, if_false]
      rw [← hparser]
      rfl
  case awaitFlag => rfl
  case awaitPin => rfl
  case awaitValue => rfl

/-! ## Bytes received and served -/

/-- The state after a byte has arrived and its handler has run. -/
def serveByte (b : Byte) (s : State) : State :=
  returnFromHandler .rx (receiveByte (clearFlag .rx { s with rxReg := b, ifgRx := true }))

/-- The state after several bytes, each served before the next (rule R122). -/
def serveBytes (bs : List Byte) (s : State) : State := bs.foldl (fun t b => serveByte b t) s

theorem serveByte_eq (b : Byte) (s : State) :
    serveByte b s = withReceiver (receiverAfter s.cfg.gen b (receiverOf s))
      { s with rxReg := b, ifgRx := false, wake := s.wake || s.cfg.wakeSet.rx } := by
  rw [serveByte, receiveByte_eq]
  rfl

/-- A state with other choices still to come. -/
def withSchedule (is : List Instr) (s : State) : State := { s with schedule := is }

/-- Serving a byte neither reads nor writes the choices. -/
theorem serveByte_withSchedule (b : Byte) (is : List Instr) (s : State) :
    serveByte b (withSchedule is s) = withSchedule is (serveByte b s) := by
  rw [serveByte_eq, serveByte_eq]
  rfl

theorem serveByte_gie (b : Byte) (s : State) : (serveByte b s).gie = s.gie := by
  rw [serveByte_eq]
  rfl

/-- One byte delivered and served takes two steps. -/
theorem runSteps_serveByte (n : Nat) {s : State} {b : Byte} {is : List Instr} (hgie : s.gie = true)
    (hs : s.schedule = .rxb b :: .isrRx :: is) :
    runSteps (n + 2) s = runSteps n (serveByte b (withSchedule is s)) := by
  have harrives : step s = .next { s with rxReg := b, ifgRx := true, schedule := .isrRx :: is } :=
    step_of_exec hs rfl rfl
  have hserved : step { s with rxReg := b, ifgRx := true, schedule := .isrRx :: is } =
      .next (serveByte b (withSchedule is s)) :=
    step_of_exec rfl (Bool.and_eq_true_iff.2 ⟨hgie, rfl⟩) (exec_isrRx_of_pending hgie rfl)
  rw [runSteps_succ harrives, runSteps_succ hserved]

/-- Bytes delivered and served take two steps each. -/
theorem runSteps_feed (n : Nat) {s : State} {bs : List Byte} {is : List Instr} (hgie : s.gie = true)
    (hs : s.schedule = feed bs ++ is) :
    runSteps (n + 2 * bs.length) s = runSteps n (serveBytes bs (withSchedule is s)) := by
  induction bs generalizing s with
  | nil => rw [show withSchedule is s = s by rw [withSchedule, ← hs.trans (List.nil_append is)]]; rfl
  | cons b bs ih =>
    have hfirst : s.schedule = .rxb b :: .isrRx :: (feed bs ++ is) := hs
    have hrest := ih (s := withSchedule (feed bs ++ is) (serveByte b s)) ((serveByte_gie b s).trans hgie) rfl
    rw [List.length_cons, Nat.mul_succ, ← Nat.add_assoc, runSteps_serveByte _ hgie hfirst, serveByte_withSchedule,
      hrest, serveBytes, serveBytes, List.foldl_cons, serveByte_withSchedule]
    rfl

/-- The raw byte of a `LEGACY` block, served (rule R176). -/
theorem serveByte_of_legacy {s : State} (b : Byte) (hgen : s.cfg.gen = .legacy) :
    serveByte b s = { s with
      rxReg := b, ifgRx := false, wake := s.wake || s.cfg.wakeSet.rx, mbByte := b, mbReady := true } := by
  rw [serveByte_eq, hgen]
  rfl

/-- The state after the four bytes `CMD_START`, `op`, `p`, `v` of a command have been served. -/
def postedState (op p v : Byte) (s : State) : State :=
  { s with
    rxReg := v, ifgRx := false, wake := s.wake || s.cfg.wakeSet.rx
    pstate := .awaitStart, pOp := op, pPin := p, mbCommand := ⟨op, p, v⟩, mbReady := true }

/-- The four bytes of a command, served one after the other from `AWAIT_START`, post it (rules R175 and R221). -/
theorem serveBytes_command {s : State} (sel : Selector) (p v : Byte) (hgen : s.cfg.gen = .current)
    (hparser : s.pstate = .awaitStart) :
    serveBytes (encode s.cfg (sel.command p v)) s = postedState (s.cfg.opsel.code sel) p v s := by
  rw [encode_command]
  simp only [serveBytes, List.foldl_cons, List.foldl_nil, serveByte_eq, withReceiver, receiverOf, receiverAfter, hgen,
    hparser, cmdParse, if_true, Option.getD_none, Option.getD_some, Option.isSome_some, Option.isSome_none,
    Bool.true_or, Bool.false_or, Bool.or_assoc, Bool.or_self, postedState]

/-! ## Taking the command -/

/-- The take of a ready mailbox as a run of one step (rule R178). -/
theorem runSteps_take {s : State} {is : List Instr} (hfg : s.fg = .take) (hready : s.mbReady = true)
    (hs : s.schedule = .mbTake :: is) :
    runSteps 1 s = .next { applyMailbox (withSchedule is s) with fg := .clear } :=
  runSteps_succ (n := 0) (step_of_exec hs (atPhase_iff.2 hfg)
    (exec_mbTake_of_ready (s := withSchedule is s) hfg hready))

/-- A selector's effect on the digital outputs depends on them and the parameters alone (rule R271). -/
theorem runSelector_sameOutputs (sel : Selector) (p v : Byte) {s t : State} (hcfg : t.cfg = s.cfg)
    (h : sameOutputs s t) : sameOutputs (runSelector sel p v s) (runSelector sel p v t) := by
  obtain ⟨hgm, ham, hgo, hao, hdp⟩ := h
  cases sel
  case cfgd => exact ⟨congrArg (setPin · p v) hgm, ham, hgo, hao, hdp⟩
  case cfga => exact ⟨hgm, congrArg (setPin · p v) ham, hgo, hao, hdp⟩
  case wrd => exact ⟨hgm, ham, congrArg (setPin · p (lvl v)) hgo, hao, hdp⟩
  case wrdm =>
    have hmirror : t.cfg.mirror = s.cfg.mirror := by rw [hcfg]
    exact ⟨hgm, ham, congrArg (setPin · p (lvl v)) hgo, congrArg₂ (mirror · · p (lvl v)) hmirror hao, hdp⟩
  case wra => exact ⟨hgm, ham, hgo, congrArg (setPin · p (lvl v)) hao, hdp⟩

/-- The take of a posted command has on the outputs the effect of its row. -/
theorem runSteps_take_posted {s t : State} {sel : Selector} {p v : Byte} {is : List Instr} (hwf : s.cfg.wf = true)
    (hgen : s.cfg.gen = .current) (hcfg : t.cfg = s.cfg) (hout : sameOutputs s t) (hfg : t.fg = .take)
    (hs : t.schedule = .mbTake :: is) :
    ∃ u, runSteps 1 (postedState (s.cfg.opsel.code sel) p v t) = .next u ∧ sameOutputs (runSelector sel p v s) u ∧
      u.fg = .clear ∧ u.mbReady = true ∧ u.pstate = .awaitStart ∧ u.schedule = is := by
  have hsel : t.cfg.opsel.select (s.cfg.opsel.code sel) = some sel := by rw [hcfg, select_code hwf]
  have happly := applyMailbox_of_select (s := withSchedule is (postedState (s.cfg.opsel.code sel) p v t))
    (hcfg ▸ hgen) hsel
  obtain ⟨_, _, _, _, hframe⟩ :=
    runSelector_frame sel p v (withSchedule is (postedState (s.cfg.opsel.code sel) p v t))
  have htaken := happly.trans hframe
  refine ⟨_, runSteps_take hfg rfl hs, ?_, rfl, ?_, ?_, ?_⟩
  · rw [happly]
    exact runSelector_sameOutputs sel p v (t := withSchedule is (postedState _ p v t)) hcfg hout
  · rw [htaken]; rfl
  · rw [htaken]; rfl
  · rw [htaken]; rfl

theorem encode_command_length (c : Cfg) (sel : Selector) (p v : Byte) : (encode c (sel.command p v)).length = 4 := by
  rw [encode_command]; rfl

theorem sameOutputs_refl (s : State) : sameOutputs s s := ⟨rfl, rfl, rfl, rfl, rfl⟩

/-- Settles O32: four bytes served post the command, and its take is its row's effect. -/
theorem hostCommandTakesEffect : Obligations.HostCommandTakesEffect := by
  intro sel p v s rest hwf hgen hgie hparser hfg hs
  have hfeed := runSteps_feed 1 hgie hs
  have hpost := serveBytes_command (s := withSchedule (.mbTake :: rest) s) sel p v hgen hparser
  obtain ⟨u, htake, hend⟩ := runSteps_take_posted (s := s) (t := withSchedule (.mbTake :: rest) s) (sel := sel) (p := p)
    (v := v) hwf hgen rfl (sameOutputs_refl s) hfg rfl
  rw [encode_command_length] at hfeed
  exact ⟨_, u, exec_command sel p v s hgen, hfeed.trans ((congrArg _ hpost).trans htake), hend⟩

theorem serveBytes_append (xs ys : List Byte) (s : State) :
    serveBytes (xs ++ ys) s = serveBytes ys (serveBytes xs s) :=
  List.foldl_append

/-- Settles O33: the second command is posted over the first, which has touched no output. -/
theorem lastCommandWins : Obligations.LastCommandWins := by
  refine ⟨?current, ?legacy⟩
  case current =>
    intro sel sel' p v p' v' s rest hwf hgen hgie hparser hfg hs
    have hfeed := runSteps_feed 1 hgie hs
    have hfirst := serveBytes_command (s := withSchedule (.mbTake :: rest) s) sel p v hgen hparser
    have hsecond := serveBytes_command
      (s := postedState (s.cfg.opsel.code sel) p v (withSchedule (.mbTake :: rest) s)) sel' p' v' hgen rfl
    obtain ⟨u, htake, hout, hclear, -⟩ := runSteps_take_posted (s := s) (sel := sel') (p := p') (v := v')
      (t := postedState (s.cfg.opsel.code sel) p v (withSchedule (.mbTake :: rest) s))
      hwf hgen rfl (sameOutputs_refl s) hfg rfl
    rw [List.length_append, encode_command_length, encode_command_length, serveBytes_append] at hfeed
    refine ⟨_, u, exec_command sel' p' v' s hgen, hfeed.trans ?_, hout, hclear⟩
    rw [← htake]
    exact congrArg _ ((congrArg _ hfirst).trans hsecond)
  case legacy =>
    intro b b' s rest hgen hgie hfg hs
    have hfeed : runSteps 5 s = runSteps 1 (serveByte b' (serveByte b (withSchedule (.mbTake :: rest) s))) :=
      runSteps_feed 1 (bs := [b, b']) hgie hs
    rw [serveByte_of_legacy b (s := withSchedule (.mbTake :: rest) s) hgen, serveByte_of_legacy b' (by exact hgen),
      runSteps_take (by exact hfg) rfl rfl, applyMailbox_of_legacy (by exact hgen)] at hfeed
    exact ⟨_, hfeed, rfl, rfl⟩

/-- Settles O34: the take's effect on the outputs is done before the byte arrives; the handler posts the byte's command
over the one taken, and `MB_CLEAR` empties the slot. -/
theorem takeClearWindowErasesCommand : Obligations.TakeClearWindowErasesCommand := by
  intro s hfg hready hgie hflag
  obtain ⟨gm, am, go, ao, dp, happly⟩ := applyMailbox_frame s
  have htake := exec_mbTake_of_ready hfg hready
  rw [happly] at htake
  have hserve := exec_isrRx_of_pending
    (s := { s with genMode := gm, auxMode := am, genOut := go, auxOut := ao, doPort := dp, fg := .clear }) hgie hflag
  rw [receiveByte_eq] at hserve
  refine ⟨_, _, _, htake, hserve, exec_mbClear_of_phase rfl, rfl, ⟨rfl, rfl, rfl, rfl, rfl⟩, rfl, ?legacy, ?current⟩
  case legacy =>
    intro hgen
    show (receiverAfter s.cfg.gen s.rxReg (receiverOf s)).mbByte = s.rxReg
    rw [hgen]
    rfl
  case current =>
    intro hgen hparser
    show (receiverAfter s.cfg.gen s.rxReg (receiverOf s)).mbCommand = _
    rw [hgen, receiverOf, hparser]
    rfl

/-- `MB_TAKE` with nothing ready goes on to `F_DINT` (rule R178). -/
theorem exec_mbTake_of_idle {s : State} (hfg : s.fg = .take) (hidle : s.mbReady = false) :
    exec .mbTake s = .next { s with fg := .dint } := by
  rw [exec, execMbTake, if_neg (by rw [hidle]; decide), foregroundStep_of_phase hfg]

/-- Settles O17: the slot's flag decides whether anything is applied, and the selector what is. -/
theorem takeAppliesMailbox : Obligations.TakeAppliesMailbox := by
  refine ⟨fun _ => exec_mbTake_of_idle, ?legacy, ?known, ?unknown, fun _ => foregroundStep_of_other_phase⟩
  case legacy =>
    intro s hfg hready hgen
    rw [exec_mbTake_of_ready hfg hready, applyMailbox_of_legacy hgen]
  case known =>
    intro s sel hfg hready hgen hwf hop
    have hsel : s.cfg.opsel.select s.mbCommand.op = some sel := by rw [hop, select_code hwf]
    refine ⟨_, exec_command sel _ _ s hgen, ?_⟩
    rw [exec_mbTake_of_ready hfg hready, applyMailbox_of_select hgen hsel]
  case unknown =>
    intro s hfg hready hgen hop
    rw [exec_mbTake_of_ready hfg hready, applyMailbox_of_unknown hgen (select_eq_none hop)]

/-- The structured decoder reads the mailbox's three bytes behind a start byte as the selector's command (rule R100). -/
theorem decodeCmd4_mailbox {c : Cfg} {op p v : Byte} {i : Instr} {rest : List Byte}
    (h : decodeCmd4 c [Config.cmdStart, op, p, v] = .ok (i, rest)) :
    ∃ sel, c.opsel.select op = some sel ∧ i = sel.command p v := by
  simp only [decodeCmd4, if_true] at h
  split at h
  case h_1 sel hsel => cases h; exact ⟨sel, hsel, rfl⟩
  case h_2 => cases h

/-- Settles O49: the selector the decoder finds is the one `apply` finds, and a raw byte is its own command. -/
theorem takeStepRunsDecodedCommand : Obligations.TakeStepRunsDecodedCommand := by
  have htake {s : State} {is : List Instr} (hs : s.schedule = .mbTake :: is) (hfg : s.fg = .take)
      (hready : s.mbReady = true) : step s = .next { applyMailbox { s with schedule := is } with fg := .clear } :=
    step_of_exec hs (atPhase_iff.2 hfg) (exec_mbTake_of_ready (s := { s with schedule := is }) hfg hready)
  refine ⟨fun s i is hs hfg hready hgen hdecode => ?current, fun s i is hs hfg hready hgen hdecode => ?legacy⟩
  case current =>
    simp only [decode, hgen] at hdecode
    obtain ⟨sel, hsel, rfl⟩ := decodeCmd4_mailbox hdecode
    refine ⟨_, exec_command sel _ _ { s with schedule := is } hgen, ?_⟩
    rw [htake hs hfg hready, applyMailbox_of_select (s := { s with schedule := is }) hgen hsel]
  case legacy =>
    rw [decode_cmd1_of_legacy hgen] at hdecode
    cases hdecode
    refine ⟨_, exec_wrport_next_iff.2 ⟨hgen, rfl⟩, ?_⟩
    rw [htake hs hfg hready, applyMailbox_of_legacy (s := { s with schedule := is }) hgen]

end Sys2Proof.Machine
end

section
/-! Single operations: the environment (rules R131, R151, R171, R196 and R212), the compare and glitch branches
(rules R139 and R156), the foreground's own steps (rules R179, R211, R242 and R335), the pin writes (rules R262, R263
and R265), the table's words (rule R124), power-on (rules R47 and R336) and the step (rule R70). -/

namespace Sys2Proof.Machine

/-! ## The environment -/

/-- An edge of either polarity, written out (rule R131). -/
theorem or_isEdge (flag : Bit) (pol : Polarity) (old new : Bit) :
    (flag || isEdge pol old new) = (flag || (pol == .rising && !old && new) || (pol == .falling && old && !new)) := by
  cases pol
  case rising => simp [isEdge, show (Polarity.rising == .falling) = false from rfl]
  case falling => simp [isEdge, show (Polarity.falling == .rising) = false from rfl]

/-- Settles O1: the edge detector, for `arm` and for `Z_POL`. -/
theorem pinSetsFlagOnArmedEdge : Obligations.PinSetsFlagOnArmedEdge := by
  intro a b z s
  rw [exec, execPin, or_isEdge, or_isEdge]

/-- Settles O2: the count is 0 after the maximum value, and the compare reads the new count. -/
theorem tickCounts : Obligations.TickCounts := by
  intro s
  have hwrap : (s.low + 1 == 0) = decide (s.low = BitVec.allOnes s.cfg.cntW) := by
    rw [beq_eq_decide]
    exact decide_eq_decide.2 (add_one_eq_zero_iff s.low)
  rw [exec, execTick, hwrap, beq_eq_decide]

/-- Settles O4: each input writes its latch; `DIN` of the other shape belongs to the other generation. -/
theorem environmentWritesLatches : Obligations.EnvironmentWritesLatches := by
  refine ⟨fun _ _ => rfl, fun _ => rfl, fun _ _ _ hgen => inGeneration_of_gen _ hgen,
    fun _ _ hgen => inGeneration_of_gen _ hgen, fun d s hfits => ?otherShape⟩
  case otherShape =>
    cases d
    case current => exact if_neg fun hgen => by rw [hgen] at hfits; cases hfits
    case legacy => exact if_neg fun hgen => by rw [hgen] at hfits; cases hfits

/-! ## Handlers -/

/-- An edge is a glitch exactly when the level of A is not the one the armed polarity leads to (rule R139). -/
theorem edgeCount_eq_none_iff {arm : Polarity} {a b : Bit} :
    edgeCount arm a b = none ↔ arm = .rising ∧ a = false ∨ arm = .falling ∧ a = true := by
  cases arm <;> cases a <;> simp [edgeCount]

theorem glitchArm_eq (g : GlitchRearm) (arm : Polarity) : glitchArm g arm = if g = .toggle then arm.flip else arm := by
  cases g <;> rfl

/-- Settles O7: the glitch branch writes `arm` alone. -/
theorem glitchEdgeIsIgnored : Obligations.GlitchEdgeIsIgnored := by
  intro s hgie hflag hlevel
  have hglitch : edgeCount (clearFlag .a s).arm (clearFlag .a s).pinA (clearFlag .a s).pinB = none :=
    edgeCount_eq_none_iff.2 hlevel
  have hexec : exec .isrA s = .next (returnFromHandler .a (decodeEdge (clearFlag .a s))) :=
    exec_handlerOf_of_enabled (src := .a) (Bool.and_eq_true_iff.2 ⟨hgie, hflag⟩)
  rw [hexec, decodeEdge_of_glitch hglitch, glitchArm_eq]
  rfl

/-- Settles O10: the handler runs where both the mask and its flag allow it, and is refused where either does not. -/
theorem compareHandlerAdvancesThreshold : Obligations.CompareHandlerAdvancesThreshold :=
  ⟨fun _ hgie hflag => exec_handlerOf_of_enabled (src := .cmp) (Bool.and_eq_true_iff.2 ⟨hgie, hflag⟩),
    fun _ h => takeInterrupt_of_disabled (handlerEnabled_eq_false_iff.2 h)⟩

/-! ## The foreground -/

/-- Settles O15: the boot has a step in its phase and in no other. -/
theorem bootEntersLoop : Obligations.BootEntersLoop :=
  ⟨fun _ => foregroundStep_of_phase, fun _ => foregroundStep_of_other_phase⟩

/-- Settles O18: the clear has a step in its phase and in no other. -/
theorem clearEmptiesMailbox : Obligations.ClearEmptiesMailbox :=
  ⟨fun _ => exec_mbClear_of_phase, fun _ => foregroundStep_of_other_phase⟩

/-- A foreground operation that its phase and one flag enable is disabled by the want of either. -/
theorem phase_and_flag_eq_false {p : Phase} {s : State} {flag : Bit} (h : s.fg ≠ p ∨ flag = false) :
    (atPhase p s && flag) = false := by
  rw [Bool.and_eq_false_iff]
  exact h.imp_left fun hfg => Bool.eq_false_iff.2 (mt atPhase_iff.1 hfg)

/-- Settles O16: the sleep ends in its phase, once `wake` is set. -/
theorem sleepEndsOnWake : Obligations.SleepEndsOnWake := by
  refine ⟨fun s hfg hwake => ?_, fun s h => foregroundStep_of_disabled (phase_and_flag_eq_false h)⟩
  exact foregroundStep_next_iff.2 ⟨Bool.and_eq_true_iff.2 ⟨atPhase_iff.2 hfg, hwake⟩, rfl⟩

/-- An enabled `TXB` whose read faults stops with that fault (notes/assumptions/6.md and 7.md). -/
theorem exec_txb_of_faults {s : State} {f : Fault} (hfg : s.fg = .tx) (hrdy : s.txRdy = true)
    (hread : bufferByte s s.txIdx = .faults f) : exec .txb s = .fault f := by
  rw [exec, execTxb, hread]
  exact if_pos (Bool.and_eq_true_iff.2 ⟨atPhase_iff.2 hfg, hrdy⟩)

/-- Settles O23: the four outcomes of the read at `tx_idx`. -/
theorem transmitSendsOneByte : Obligations.TransmitSendsOneByte := by
  refine ⟨?sends, fun _ h => foregroundStep_of_disabled (phase_and_flag_eq_false h), ?outside, ?unwritten⟩
  case sends =>
    intro s b hfg hrdy hidx hb
    rw [exec_txb_of_read hfg hrdy hidx hb, transmit, hfg]
  case outside =>
    intro s hfg hrdy hidx
    exact exec_txb_of_faults hfg hrdy (if_neg hidx.not_gt)
  case unwritten =>
    intro s hfg hrdy hidx hnone
    exact exec_txb_of_faults hfg hrdy (by rw [bufferByte, if_pos hidx, hnone])

/-! ## Pins -/

/-- Settles O25: the two configure commands write the register of their pin. -/
theorem configurePinRecordsMode : Obligations.ConfigurePinRecordsMode := by
  refine ⟨fun k m s hgen => ?general, fun k m s hgen => ?auxiliary⟩
  case general =>
    rw [← setPin_of_fin]
    exact exec_command .cfgd _ m s hgen
  case auxiliary =>
    rw [← setPin_of_fin]
    exact exec_command .cfga _ m s hgen

/-- Settles O27: the general pin is written under every effect, the auxiliary one as the effect says. -/
theorem writeMirroredPin : Obligations.WriteMirroredPin := by
  refine ⟨fun k v s hgen hmirror => ?same, fun k v s hgen _ => ?other, fun _ => rfl⟩
  case same =>
    have heffect : mirror s.cfg.mirror s.auxOut (BitVec.ofNat 8 (k + 1)) (lvl v) = s.auxOut.set k (lvl v) := by
      rw [hmirror, mirror, setPin_of_fin]
    refine (exec_command .wrdm _ v s hgen).trans ?_
    rw [runSelector, cmdWrdm, heffect, setPin_of_fin]
    rfl
  case other =>
    refine ⟨mirror s.cfg.mirror s.auxOut (BitVec.ofNat 8 (k + 1)) (lvl v), (exec_command .wrdm _ v s hgen).trans ?_⟩
    rw [runSelector, cmdWrdm, setPin_of_fin]
    rfl

/-! ## The table's words -/

/-- Settles O46: each word decoded. -/
theorem tableWordsDecode : Obligations.TableWordsDecode := by
  refine ⟨?_, ?_, ?_, ?_, ?_, ?_, ?_, ?_⟩ <;> decide

/-! ## Power-on -/

/-- Settles O47: the reset values are those of the power-on state, and `BOOT` runs in its phase. -/
theorem powerOnAndLaunchState : Obligations.PowerOnAndLaunchState := by
  intro c x sched r
  have hboot := bootEntersLoop.1 r rfl
  refine ⟨⟨rfl, rfl, rfl, rfl, rfl, rfl, rfl, rfl, rfl, rfl, rfl, rfl, rfl⟩, _, hboot, rfl, rfl, rfl, fun src => ?_,
    rfl, rfl, rfl, rfl, rfl, rfl, rfl, rfl, rfl⟩
  cases src <;> rfl

/-! ## The step -/

/-- The step runs the choice made where it has a step, and otherwise only uses it up. -/
theorem step_of_scheduled {s : State} {i : Instr} (h : scheduled s = i) :
    (canStep i s = true → step s = exec i (afterChoice s)) ∧
      (canStep i s = false → step s = .next (afterChoice s)) := by
  subst h
  rw [step, canStep_afterChoice]
  exact ⟨fun hcan => if_pos hcan, fun hcan => if_neg (by rw [hcan]; exact Bool.false_ne_true)⟩

/-- Settles O48: the choice is the schedule's first operation, or with no schedule the one drawn. -/
theorem stepRunsScheduledOperation : Obligations.StepRunsScheduledOperation := by
  refine ⟨fun s i is hs => ?scheduled, fun s hs => ?drawn⟩
  case scheduled =>
    have hstep := step_of_scheduled (scheduled_cons hs)
    rwa [afterChoice_cons hs] at hstep
  case drawn =>
    have hchoice : scheduled s = Config.draw s.drawn := by rw [scheduled, hs]
    have hafter : afterChoice s = { s with drawn := s.drawn + 1 } := by simp [afterChoice, hs]
    have hstep := step_of_scheduled hchoice
    rwa [hafter] at hstep

end Sys2Proof.Machine
end
